-- ==== Sys2Proof/Config.lean ====
section
/-! DEFINITION. The constants of the code (00_scope.md R5): fixed, not configurable. The spec leaves no function value
open (00_scope.md R7), so there is no opaque constant here. `MAX_BITS` (92_eei_decisions.md D11) has no value in the
spec; a claim that needs a bound takes it as an argument (`Sys2Proof.Machine.Request.within`, Safety.lean; log 8). -/

namespace Sys2Proof.Config

/-- K, the data width in bits: the block length of `encodeStream` (R5). -/
abbrev dataBits : Nat := 4
/-- N, the codeword width in bits: the block length of `decodeStream` (R5). -/
abbrev codeBits : Nat := 7
/-- R = N - K, the parity width in bits; also the width of the syndrome and of the error position (R5). -/
abbrev parityBits : Nat := 3
/-- The width of a byte in bits (R5). -/
abbrev byteBits : Nat := 8

end Sys2Proof.Config
end

