-- ==== Sys2Proof/Word.lean ====
section
/-! DEFINITION. The value types of 10_state.md section 4: bits, bytes, the 4-bit block, the 7-bit codeword, the error
position, bit and byte sequences, and the 8-bit request word of 30_encoding.md R37. -/

namespace Sys2Proof

/-- A bit, a value in 0 and 1 and nothing else (10_state.md R19; log 7). `false` is 0, `true` is 1. -/
abbrev Bit := Bool

/-- An unsigned value 0 to 255 (10_state.md section 4). -/
abbrev Byte := BitVec Config.byteBits

/-- A finite sequence of bits of any length, first element first (90_conflicts.md C2). -/
abbrev BitSeq := List Bit

/-- A finite sequence of bytes of any length, first element first. -/
abbrev ByteSeq := List Byte

/-- The error position, a 3-bit unsigned number: 0 for none, else a 1-based codeword position (30_encoding.md R32). -/
abbrev ErrPos := BitVec Config.parityBits

/-- The request word `req[7:0]`, notation of the spec for programs and no pin of the hardware (30_encoding.md R37). -/
abbrev RequestWord := BitVec 8

/-- The 4-bit block, indices 0 to 3 (30_encoding.md R30). -/
structure Block4 where
  d0 : Bit
  d1 : Bit
  d2 : Bit
  d3 : Bit
  deriving DecidableEq, Repr

/-- A 7-bit word, indices 0 to 6 (30_encoding.md R31). In a codeword made by the encoder the indices hold
`[p1, p2, d0, p3, d1, d2, d3]`; a received word is any seven bits. -/
structure Codeword7 where
  c0 : Bit
  c1 : Bit
  c2 : Bit
  c3 : Bit
  c4 : Bit
  c5 : Bit
  c6 : Bit
  deriving DecidableEq, Repr

/-- The block as the sequence `[d0, d1, d2, d3]`. -/
def Block4.toList (d : Block4) : BitSeq := [d.d0, d.d1, d.d2, d.d3]

/-- The word as the sequence `[c[0], ..., c[6]]`. -/
def Codeword7.toList (c : Codeword7) : BitSeq := [c.c0, c.c1, c.c2, c.c3, c.c4, c.c5, c.c6]

end Sys2Proof
end

