-- ==== Sys2Proof/Syntax.lean ====
section
/-! DEFINITION. The instructions: one constructor per row of spec/opcode_table.json (30_encoding.md R37, R38). -/

namespace Sys2Proof

/-- The two hardware operations (00_scope.md R2). -/
inductive Instr where
  /-- `ENC d` (the source's `encodeBlock`), row ENC: drive `hamming_7_4_encoder` with the block `d` (R45). -/
  | enc (d : Block4)
  /-- `DEC c` (the source's `decodeBlock`), row DEC: drive `hamming_7_4_decoder` with the received word `c` (R55). -/
  | dec (c : Codeword7)
  deriving DecidableEq, Repr

end Sys2Proof
end

