-- ==== Sys2Proof/WellFormed.lean ====
section
/-! DEFINITION. What is well formed. An instruction always is: its operands are of fixed width and "No operand value is
illegal or reserved" (30_encoding.md R39, 20_memory.md R25). A request word is when it names an operation (R40), and a
program, a list of request words, when every word of it does (10_state.md R12, 92_eei_decisions.md D23). -/

namespace Sys2Proof

/-- Every instruction is well formed: all 16 blocks and all 128 words are legal operands (30_encoding.md R39). -/
def Instr.wellFormed (i : Instr) : Bool :=
  match i with
  | .enc _ => true
  | .dec _ => true

/-- A request word names an operation unless it is one of 0x10 to 0x7F (30_encoding.md R40). -/
def RequestWord.wellFormed (w : RequestWord) : Bool := !(decide (0x10 ≤ w.toNat) && decide (w.toNat ≤ 0x7F))

/-- "A program that contains one is not a program of this spec" (30_encoding.md R40). -/
def wellFormedProgram (ws : List RequestWord) : Bool := ws.all RequestWord.wellFormed

end Sys2Proof
end

