-- ==== Sys2Proof/Decode.lean ====
section
/-! DEFINITION. Port packing (10_state.md R18, 92_eei_decisions.md D4), the operation map of request words
(30_encoding.md R37), the decoder, total and rejecting by name (R40), and after it the encoder. -/

namespace Sys2Proof

/-! ### Ports: index 0 of a sequence is the most significant bit of its vector (D4; log 6) -/

/-- The block as the number `8*d0 + 4*d1 + 2*d2 + d3` on `data_in` or `data_out` (30_encoding.md R30). -/
def Block4.toPort (d : Block4) : BitVec 4 :=
  BitVec.ofNat 4 (8 * d.d0.toNat + 4 * d.d1.toNat + 2 * d.d2.toNat + d.d3.toNat)

/-- The block carried by a 4-bit port: port bit 3 is `d0`, port bit 0 is `d3` (30_encoding.md R30). -/
def Block4.ofPort (v : BitVec 4) : Block4 := ⟨v.getLsbD 3, v.getLsbD 2, v.getLsbD 1, v.getLsbD 0⟩

/-- The word as a number on `code_in` or `code_out`, with the weights 64 down to 1 (30_encoding.md R31). -/
def Codeword7.toPort (c : Codeword7) : BitVec 7 :=
  BitVec.ofNat 7 (64 * c.c0.toNat + 32 * c.c1.toNat + 16 * c.c2.toNat + 8 * c.c3.toNat + 4 * c.c4.toNat
    + 2 * c.c5.toNat + c.c6.toNat)

/-- The word carried by a 7-bit port: port bit `6-i` is `c[i]` (30_encoding.md R31). -/
def Codeword7.ofPort (v : BitVec 7) : Codeword7 :=
  ⟨v.getLsbD 6, v.getLsbD 5, v.getLsbD 4, v.getLsbD 3, v.getLsbD 2, v.getLsbD 1, v.getLsbD 0⟩

/-! ### The operation map -/

/-- A row of the operation map: a word belongs to it when `w & mask = pattern`. -/
structure OpRow where
  mnemonic : String
  mask : RequestWord
  pattern : RequestWord
  deriving DecidableEq, Repr

/-- `ENC d`: mask 0xF0, match 0x00 (30_encoding.md R37). -/
def encRow : OpRow := ⟨"ENC", 0xF0#8, 0x00#8⟩

/-- `DEC c`: mask 0x80, match 0x80 (30_encoding.md R37). -/
def decRow : OpRow := ⟨"DEC", 0x80#8, 0x80#8⟩

/-- The rows of spec/opcode_table.json. -/
def opcodeTable : List OpRow := [encRow, decRow]

/-- The word belongs to the row. -/
def OpRow.owns (r : OpRow) (w : RequestWord) : Bool := w &&& r.mask == r.pattern

/-- Why a list of request words gives no instruction. -/
inductive DecodeError where
  /-- the word is one of 0x10 to 0x7F and names no operation (30_encoding.md R40); safe: no result is given -/
  | noOperation (w : RequestWord)
  /-- the list holds no word; safe: no result is given -/
  | noWord
  deriving DecidableEq, Repr

/-- The instruction of one request word, or the rejection of R40. -/
def decodeWord (w : RequestWord) : Except DecodeError Instr :=
  if encRow.owns w then .ok (.enc (Block4.ofPort (w.extractLsb' 0 4)))
  else if decRow.owns w then .ok (.dec (Codeword7.ofPort (w.extractLsb' 0 7)))
  else .error (.noOperation w)

/-- The first instruction of a list of request words, with the words after it. -/
def decode (ws : List RequestWord) : Except DecodeError (Instr × List RequestWord) :=
  match ws with
  | [] => .error .noWord
  | w :: rest =>
    match decodeWord w with
    | .ok i => .ok (i, rest)
    | .error e => .error e

/-- A whole program, "a finite list of request words evaluated first to last" (92_eei_decisions.md D23). -/
def decodeProgram (ws : List RequestWord) : Except DecodeError (List Instr) :=
  match ws with
  | [] => .ok []
  | w :: rest =>
    match decodeWord w with
    | .error e => .error e
    | .ok i =>
      match decodeProgram rest with
      | .error e => .error e
      | .ok is => .ok (i :: is)

/-- The host's query: the instruction the decoder reads from a table row's `nbits` bits. Every request word has 8 bits
(30_encoding.md R41), so a number of more than 8 bits is no request word (log 16). -/
def decodeTableWord (nbits w : Nat) : Option Instr :=
  let v := w % 2 ^ nbits
  if v < 256 then
    match decode [BitVec.ofNat 8 v] with
    | .ok (i, _) => some i
    | .error _ => none
  else none

/-! ### The encoder -/

/-- `ENC` of block value `n` is `zext_8(n)`; `DEC` of word value `w` is `0x80 + w` (30_encoding.md R37). -/
def encodeWord (i : Instr) : RequestWord :=
  match i with
  | .enc d => d.toPort.setWidth 8
  | .dec c => 0x80#8 + c.toPort.setWidth 8

/-- The words of an instruction: always one (30_encoding.md R41). -/
def encode (i : Instr) : List RequestWord := [encodeWord i]

end Sys2Proof
end

