-- ==== Sys2Proof/Machine/State.lean ====
section
/-! DEFINITION. The machine's state, the failure, the refusals, and the forms of requests and results. The hardware has
no state (10_state.md R10 to R17); what State holds beside the blocks' unit is the caller's: its request list and the
results it has taken (10_state.md R12, 92_eei_decisions.md D23; log 1). There is no memory (20_memory.md R20; log 12). -/

namespace Sys2Proof.Machine

/-- The one failure of the spec. No STEP ends in it: it is carried in a `Result` and the machine goes on
(60_exceptions.md R85, R90, R91; log 10). -/
inductive Fault where
  /-- `MalformedLength`: a sequence length is not a multiple of 8, 4 or 7 as required. Raised by `bitsToBytes`,
  `encodeStream`, `decodeStream` and `decode` (R86), as the value of the call; safe, it is the spec's own result. It has
  no code and no payload (R87). -/
  | malformedLength
  deriving DecidableEq, Repr

/-- Why a step gives no result at all. -/
inductive Refusal where
  /-- raised by an arm of `exec` whose instruction has no meaning yet (none is left); safe -/
  | notModelled (mnemonic : String)
  /-- raised by a step whose request word names no operation, 0x10 to 0x7F (30_encoding.md R40); safe -/
  | noOperation (w : RequestWord)
  /-- raised by a step when no request is left: "the run ends after the last request" (D23; log 4); safe -/
  | runEnded
  deriving DecidableEq, Repr

/-- `Result T` of 10_state.md section 4: `ok v` or `fail`. -/
inductive Result (α : Type) where
  | ok (v : α)
  | fail (f : Fault)
  deriving DecidableEq, Repr

/-- A call of a pseudo-instruction with its argument (30_encoding.md R38, R44). It has no bit pattern. -/
inductive Call where
  | bytesToBits (bytes : ByteSeq)
  | bitsToBytes (bits : BitSeq)
  | encodeStream (bits : BitSeq)
  | decodeStream (bits : BitSeq)
  | encode (bytes : ByteSeq)
  | decode (bits : BitSeq)
  deriving DecidableEq, Repr

/-- The eight operations of 30_encoding.md R38 with their operands. -/
inductive Op where
  /-- a hardware operation -/
  | block (i : Instr)
  /-- a pseudo-instruction -/
  | call (p : Call)
  deriving DecidableEq, Repr

/-- The result types of 30_encoding.md R38. -/
inductive OpResult where
  /-- of `ENC`: the codeword on `code_out` -/
  | codeword (c : Codeword7)
  /-- of `DEC`: the block on `data_out` and the position on `err_pos` -/
  | corrected (d : Block4) (pos : ErrPos)
  /-- of `bytesToBits` and `encode`, which never fail -/
  | bits (s : BitSeq)
  /-- of `encodeStream` and `decodeStream` -/
  | bitsResult (r : Result BitSeq)
  /-- of `bitsToBytes` and `decode` -/
  | bytesResult (r : Result ByteSeq)
  deriving DecidableEq, Repr

/-- One request the caller presents: a request word (30_encoding.md R37) or a call of a pseudo-instruction (log 3). -/
inductive Request where
  | word (w : RequestWord)
  | call (p : Call)
  deriving DecidableEq, Repr

/-- One result, beside the operation it answers. -/
structure Answer where
  op : Op
  result : OpResult
  deriving DecidableEq, Repr

/-- The state of the two blocks: "an empty state type (a unit type)" (10_state.md R10). -/
abbrev Blocks := Unit

/-- The machine. `blocks` is the hardware's state; `requests` and `answers` are the caller's lists (log 1). -/
structure State where
  /-- the hardware: nothing is stored (10_state.md R10 to R17) -/
  blocks : Blocks
  /-- the requests not yet evaluated, first to last (10_state.md R12) -/
  requests : List Request
  /-- the results so far, one per request, in order (10_state.md R12) -/
  answers : List Answer
  deriving DecidableEq, Repr

/-- After reset: "the one value of the unit type" (70_reset_and_hazards.md R100), no request presented and no result
taken (log 2). -/
def State.reset : State := { blocks := (), requests := [], answers := [] }

end Sys2Proof.Machine
end

