-- ==== Sys2Proof/Machine/Ops.lean ====
section
/-! DEFINITION. The named operations: on sequences (00_scope.md section 5.1, R8), on the failure result
(60_exceptions.md R85, R89, R90), and on the caller's lists (10_state.md R12). The hardware has no register and no
memory, so no operation reads or writes one. -/

namespace Sys2Proof.Machine

/-! ### Sequences -/

/-- `s[i..j)`: the elements with index `i` up to but not including `j` (00_scope.md section 5.1). -/
def slice {α : Type} (s : List α) (i j : Nat) : List α := (s.take j).drop i

/-- `a ^ b` on sequences of equal length, bit by bit (00_scope.md section 5.3). -/
def xorBits (a b : BitSeq) : BitSeq := List.zipWith xor a b

/-- The number of ones of a sequence (40_encoder.md R46). -/
def ones (s : BitSeq) : Nat := s.count true

/-- `a ^ b` on blocks, bit by bit. -/
def xorBlock (a b : Block4) : Block4 := ⟨a.d0 ^^ b.d0, a.d1 ^^ b.d1, a.d2 ^^ b.d2, a.d3 ^^ b.d3⟩

/-- `a ^ b` on 7-bit words, bit by bit. -/
def xorWord (a b : Codeword7) : Codeword7 :=
  ⟨a.c0 ^^ b.c0, a.c1 ^^ b.c1, a.c2 ^^ b.c2, a.c3 ^^ b.c3, a.c4 ^^ b.c4, a.c5 ^^ b.c5, a.c6 ^^ b.c6⟩

/-- The weight of a 7-bit word: its number of ones (40_encoder.md R46). -/
def weight (c : Codeword7) : Nat := ones c.toList

/-- `flip(c, i)`: the bit at 0-based index `i` complemented and every other bit unchanged (00_scope.md section 5.1).
An index above 6 names no bit, and no bit changes; R55 never uses one. -/
def flipBit (c : Codeword7) (i : Nat) : Codeword7 :=
  match i with
  | 0 => { c with c0 := !c.c0 }
  | 1 => { c with c1 := !c.c1 }
  | 2 => { c with c2 := !c.c2 }
  | 3 => { c with c3 := !c.c3 }
  | 4 => { c with c4 := !c.c4 }
  | 5 => { c with c5 := !c.c5 }
  | 6 => { c with c6 := !c.c6 }
  | _ + 7 => c

/-- `unit(k)`: all zero for `k = 0`, else the 7-bit sequence with a single 1 at index `k-1` (41_decoder.md R58). -/
def unit (k : ErrPos) : Codeword7 := ⟨k == 1, k == 2, k == 3, k == 4, k == 5, k == 6, k == 7⟩

/-! ### The failure -/

/-- `raise`: the operation stops, returns no sequence, and its result is `fail` (60_exceptions.md R85). This is all that
entering the failure does: "Nothing is saved, no mode changes, no handler is entered and no vector is consulted" (R90),
and there is nothing to return from (R91). -/
def raise {α : Type} (f : Fault) : Result α := .fail f

/-- The one length check: it comes first, on the whole length, and on failure there is no partial result
(60_exceptions.md R89). -/
def requireWhole {α β : Type} (n : Nat) (s : List α) (r : Result β) : Result β :=
  if s.length % n ≠ 0 then raise .malformedLength else r

/-! ### The caller's lists -/

/-- The caller's next request, taken off the front of its list; none when the list is empty (10_state.md R12). -/
def State.fetch (s : State) : Option (Request × State) :=
  match s.requests with
  | [] => none
  | r :: rest => some (r, { s with requests := rest })

/-- The caller puts a request in front of its list. -/
def State.present (s : State) (r : Request) : State := { s with requests := r :: s.requests }

/-- The caller takes the result of an operation: it is appended to the results (10_state.md R12). -/
def State.answer (s : State) (op : Op) (r : OpResult) : State := { s with answers := s.answers ++ [⟨op, r⟩] }

/-- The refusal of a step whose word did not decode (30_encoding.md R40). -/
def refusalOf (e : DecodeError) : Refusal :=
  match e with
  | .noOperation w => .noOperation w
  | .noWord => .runEnded

end Sys2Proof.Machine
end

