-- ==== Sys2Proof/Machine/Operands.lean ====
section
/-! DEFINITION. Operand assembly (30_encoding.md R33, R34, R36) and the grouping of sequences into blocks, codewords and
bytes (20_memory.md R22, R23, R24). -/

namespace Sys2Proof.Machine

/-- `p1 = d0 ^ d1 ^ d3` (30_encoding.md R33). -/
def parity1 (d : Block4) : Bit := d.d0 ^^ d.d1 ^^ d.d3

/-- `p2 = d0 ^ d2 ^ d3` (30_encoding.md R33). -/
def parity2 (d : Block4) : Bit := d.d0 ^^ d.d2 ^^ d.d3

/-- `p3 = d1 ^ d2 ^ d3` (30_encoding.md R33). -/
def parity3 (d : Block4) : Bit := d.d1 ^^ d.d2 ^^ d.d3

/-- The parity bits and the data bits interleaved as `[p1, p2, d0, p3, d1, d2, d3]` (30_encoding.md R31, R33). -/
def interleave (p1 p2 p3 : Bit) (d : Block4) : Codeword7 := ⟨p1, p2, d.d0, p3, d.d1, d.d2, d.d3⟩

/-- The data bits at the indices 2, 4, 5, 6 of a word (30_encoding.md R34, 41_decoder.md R59). -/
def extract (cc : Codeword7) : Block4 := ⟨cc.c2, cc.c4, cc.c5, cc.c6⟩

/-- The byte `128*b[0] + 64*b[1] + ... + b[7]` (30_encoding.md R36). -/
def byteOfBits (b0 b1 b2 b3 b4 b5 b6 b7 : Bit) : Byte :=
  BitVec.ofNat 8 (128 * b0.toNat + 64 * b1.toNat + 32 * b2.toNat + 16 * b3.toNat + 8 * b4.toNat + 4 * b5.toNat
    + 2 * b6.toNat + b7.toNat)

/-- The eight bits of a byte, most significant first (20_memory.md R22). -/
def bitsOfByte (b : Byte) : BitSeq :=
  [b.getLsbD 7, b.getLsbD 6, b.getLsbD 5, b.getLsbD 4, b.getLsbD 3, b.getLsbD 2, b.getLsbD 1, b.getLsbD 0]

/-- The "consecutive non-overlapping groups of 4 (in original order)" (20_memory.md R23). It is applied only to whole
sequences, the length check standing before it; a rest of fewer than 4 bits would give no block (log 11). -/
def blocksOf (bits : BitSeq) : List Block4 :=
  match bits with
  | d0 :: d1 :: d2 :: d3 :: rest => ⟨d0, d1, d2, d3⟩ :: blocksOf rest
  | _ => []

/-- The "consecutive groups of 7" (20_memory.md R23, R24), applied only to whole sequences (log 11). -/
def wordsOf (bits : BitSeq) : List Codeword7 :=
  match bits with
  | c0 :: c1 :: c2 :: c3 :: c4 :: c5 :: c6 :: rest => ⟨c0, c1, c2, c3, c4, c5, c6⟩ :: wordsOf rest
  | _ => []

/-- The bytes of the consecutive groups of 8 (42_bitpacker.md R71), applied only to whole sequences (log 11). -/
def bytesOf (bits : BitSeq) : ByteSeq :=
  match bits with
  | b0 :: b1 :: b2 :: b3 :: b4 :: b5 :: b6 :: b7 :: rest => byteOfBits b0 b1 b2 b3 b4 b5 b6 b7 :: bytesOf rest
  | _ => []

end Sys2Proof.Machine
end

