-- ==== Sys2Proof/Machine/BitPacker.lean ====
section
/-! DEFINITION. The bit packer pseudo-instructions (42_bitpacker.md R70, R71). -/

namespace Sys2Proof.Machine

/-- `bytesToBits`: each byte in order, most significant bit first; total (42_bitpacker.md R70). -/
def bytesToBits (bytes : ByteSeq) : BitSeq := bytes.flatMap bitsOfByte

/-- `bitsToBytes`: the length check, then each group of 8 as a byte (42_bitpacker.md R71). -/
def bitsToBytes (bits : BitSeq) : Result ByteSeq := requireWhole Config.byteBits bits (.ok (bytesOf bits))

/-- The call `bytesToBits(bytes)`. -/
def execBytesToBits (bytes : ByteSeq) (s : State) : Host.Outcome State Fault Refusal :=
  .next (s.answer (.call (.bytesToBits bytes)) (.bits (bytesToBits bytes)))

/-- The call `bitsToBytes(bits)`: a failure is its result, and the machine goes on (60_exceptions.md R90, R91). -/
def execBitsToBytes (bits : BitSeq) (s : State) : Host.Outcome State Fault Refusal :=
  .next (s.answer (.call (.bitsToBytes bits)) (.bytesResult (bitsToBytes bits)))

end Sys2Proof.Machine
end

