-- ==== Sys2Proof/Machine/Flags.lean ====
section
/-! DEFINITION. The hardware stores no flag (10_state.md R13). The nearest things are the decoder's three parity checks
and the error position, results of the present evaluation only (41_decoder.md R56, R57). -/

namespace Sys2Proof.Machine

/-- `s1 = c[0] ^ c[2] ^ c[4] ^ c[6]` (41_decoder.md R56). -/
def check1 (c : Codeword7) : Bit := c.c0 ^^ c.c2 ^^ c.c4 ^^ c.c6

/-- `s2 = c[1] ^ c[2] ^ c[5] ^ c[6]` (41_decoder.md R56). -/
def check2 (c : Codeword7) : Bit := c.c1 ^^ c.c2 ^^ c.c5 ^^ c.c6

/-- `s3 = c[3] ^ c[4] ^ c[5] ^ c[6]` (41_decoder.md R56). -/
def check3 (c : Codeword7) : Bit := c.c3 ^^ c.c4 ^^ c.c5 ^^ c.c6

/-- `errorPosition = s1 + 2*s2 + 4*s3`; the sum cannot overflow 3 bits (41_decoder.md R57). -/
def errorPosition (c : Codeword7) : ErrPos :=
  BitVec.ofNat 3 ((check1 c).toNat + 2 * (check2 c).toNat + 4 * (check3 c).toNat)

/-- A word is a valid codeword when all three checks are 0 (40_encoder.md R48). -/
def isValid (c : Codeword7) : Bool := !check1 c && !check2 c && !check3 c

end Sys2Proof.Machine
end

