-- ==== Sys2Proof/Machine/Decoder.lean ====
section
/-! DEFINITION. The decoder block and the meaning of `DEC` (41_decoder.md R55 to R59). -/

namespace Sys2Proof.Machine

/-- The local copy `cc`: the received word with the bit at the 1-based error position flipped, if there is one
(41_decoder.md R58). -/
def correctedCopy (c : Codeword7) : Codeword7 :=
  if errorPosition c ≠ 0 then flipBit c ((errorPosition c).toNat - 1) else c

/-- `decodeBlock`: the corrected block and the error position, for each of the 128 words; it "always succeeds"
(41_decoder.md R55, also for two or more flipped bits: R62, 90_conflicts.md C5). -/
def decodeBlock (c : Codeword7) : Block4 × ErrPos := (extract (correctedCopy c), errorPosition c)

/-- `DEC c`: block and position are the result; no state is read or written, no flag, no exception (R55). -/
def execDec (c : Codeword7) (s : State) : Host.Outcome State Fault Refusal :=
  .next (s.answer (.block (.dec c)) (.corrected (decodeBlock c).1 (decodeBlock c).2))

end Sys2Proof.Machine
end

