-- ==== Sys2Proof/Machine/Encoder.lean ====
section
/-! DEFINITION. The encoder block and the meaning of `ENC` (40_encoder.md R45). -/

namespace Sys2Proof.Machine

/-- `encodeBlock`: "Pure, total, no failure" (40_encoder.md R45). -/
def encodeBlock (d : Block4) : Codeword7 := interleave (parity1 d) (parity2 d) (parity3 d) d

/-- `ENC d`: the codeword is the result; no state is read or written, no flag, no exception (40_encoder.md R45). -/
def execEnc (d : Block4) (s : State) : Host.Outcome State Fault Refusal :=
  .next (s.answer (.block (.enc d)) (.codeword (encodeBlock d)))

end Sys2Proof.Machine
end

