-- ==== Sys2Proof/Machine/Stream.lean ====
section
/-! DEFINITION. The stream pseudo-instructions (43_stream.md R75, R76). -/

namespace Sys2Proof.Machine

/-- The loop of `encodeStream`: `ENC` of each block, the codewords concatenated in order (43_stream.md R75). -/
def encodeBlocks (bits : BitSeq) : BitSeq := (blocksOf bits).flatMap fun d => (encodeBlock d).toList

/-- The loop of `decodeStream`: `DEC` of each word, the blocks concatenated in order, the positions dropped
(43_stream.md R76). -/
def decodeWords (bits : BitSeq) : BitSeq := (wordsOf bits).flatMap fun c => (decodeBlock c).1.toList

/-- `encodeStream`: the length check first, then the loop (43_stream.md R75). -/
def encodeStream (bits : BitSeq) : Result BitSeq := requireWhole Config.dataBits bits (.ok (encodeBlocks bits))

/-- `decodeStream`: the length check first, then the loop (43_stream.md R76). -/
def decodeStream (bits : BitSeq) : Result BitSeq := requireWhole Config.codeBits bits (.ok (decodeWords bits))

/-- The call `encodeStream(bits)`, one step in all (92_eei_decisions.md D14; log 3). -/
def execEncodeStream (bits : BitSeq) (s : State) : Host.Outcome State Fault Refusal :=
  .next (s.answer (.call (.encodeStream bits)) (.bitsResult (encodeStream bits)))

/-- The call `decodeStream(bits)`, one step in all (92_eei_decisions.md D14; log 3). -/
def execDecodeStream (bits : BitSeq) (s : State) : Host.Outcome State Fault Refusal :=
  .next (s.answer (.call (.decodeStream bits)) (.bitsResult (decodeStream bits)))

end Sys2Proof.Machine
end

