-- ==== Sys2Proof/Machine/Facades.lean ====
section
/-! DEFINITION. The facade pseudo-instructions `encode` and `decode` (44_facades.md R80, R81). Their names here avoid the
instruction encoder and decoder of Decode.lean. -/

namespace Sys2Proof.Machine

/-- `encode`: `encodeStream(bytesToBits(bytes))`, whose check cannot fail, so "The result type is therefore a plain
BitSeq, the `ok` of `encodeStream` unwrapped" (44_facades.md R80; log 11). -/
def facadeEncode (bytes : ByteSeq) : BitSeq := encodeBlocks (bytesToBits bytes)

/-- `decode`: `decodeStream`, its failure surfaced unchanged; then the check that the decoded length is a multiple of 8;
then `bitsToBytes` (44_facades.md R81). -/
def facadeDecode (bits : BitSeq) : Result ByteSeq :=
  match decodeStream bits with
  | .fail f => raise f
  | .ok decoded => requireWhole Config.byteBits decoded (bitsToBytes decoded)

/-- The call `encode(bytes)`. -/
def execEncode (bytes : ByteSeq) (s : State) : Host.Outcome State Fault Refusal :=
  .next (s.answer (.call (.encode bytes)) (.bits (facadeEncode bytes)))

/-- The call `decode(bits)`. -/
def execDecode (bits : BitSeq) (s : State) : Host.Outcome State Fault Refusal :=
  .next (s.answer (.call (.decode bits)) (.bytesResult (facadeDecode bits)))

end Sys2Proof.Machine
end

