-- ==== Sys2Proof/Machine/Calls.lean ====
section
/-! DEFINITION. One arm per pseudo-instruction (30_encoding.md R38). -/

namespace Sys2Proof.Machine

/-- The meaning of a call: the caller or a sequencer carries it out (00_scope.md R2). -/
def execCall (p : Call) (s : State) : Host.Outcome State Fault Refusal :=
  match p with
  | .bytesToBits bytes => execBytesToBits bytes s
  | .bitsToBytes bits => execBitsToBytes bits s
  | .encodeStream bits => execEncodeStream bits s
  | .decodeStream bits => execDecodeStream bits s
  | .encode bytes => execEncode bytes s
  | .decode bits => execDecode bits s

end Sys2Proof.Machine
end

