-- ==== Sys2Proof/Machine/Step.lean ====
section
/-! DEFINITION. One step: the caller's next request is evaluated and gives one result (10_state.md R12,
92_eei_decisions.md D23). -/

namespace Sys2Proof.Machine

/-- A request word is decoded and run by its block; a call is carried out; a word that names no operation is refused by
name (30_encoding.md R40); with no request left the run has ended (log 4). -/
def step (s : State) : Host.Outcome State Fault Refusal :=
  match s.fetch with
  | none => .refused .runEnded
  | some (.word w, t) =>
    match decodeWord w with
    | .ok i => exec i t
    | .error e => .refused (refusalOf e)
  | some (.call p, t) => execCall p t

/-- The request word stored where `step` takes its next request: in front of the caller's list (log 2). -/
def State.withFetchWord (s : State) (nbits w : Nat) : State := s.present (.word (BitVec.ofNat 8 (w % 2 ^ nbits)))

end Sys2Proof.Machine
end

