-- ==== Sys2Proof/Machine/Ports.lean ====
section
/-! DEFINITION. The two blocks as combinational circuits between their ports, and a result as the value on the output
ports (10_state.md R18, 30_encoding.md R37). The ports hold nothing; an output is a function of the input (R100). -/

namespace Sys2Proof.Machine

/-- `hamming_7_4_encoder`: from `data_in[3:0]` to `code_out[6:0]` (10_state.md R18). -/
def encoderBlock (dataIn : BitVec 4) : BitVec 7 := (encodeBlock (Block4.ofPort dataIn)).toPort

/-- The two output ports of the decoder (10_state.md R18). -/
structure DecoderOut where
  dataOut : BitVec 4
  errPos : BitVec 3
  deriving DecidableEq, Repr

/-- `hamming_7_4_decoder`: from `code_in[6:0]` to `data_out[3:0]` and `err_pos[2:0]` (10_state.md R18). -/
def decoderBlock (codeIn : BitVec 7) : DecoderOut :=
  ⟨(decodeBlock (Codeword7.ofPort codeIn)).1.toPort, (decodeBlock (Codeword7.ofPort codeIn)).2⟩

/-- The value of a result on the output ports; a pseudo-instruction's result is on none (30_encoding.md R37). -/
inductive PortValue where
  /-- `code_out` of the encoder -/
  | encoder (codeOut : BitVec 7)
  /-- `data_out` and `err_pos` of the decoder -/
  | decoder (out : DecoderOut)
  /-- no port: the result of a pseudo-instruction -/
  | noPort
  deriving DecidableEq, Repr

/-- "The result of a request is written as the value on the output ports" (30_encoding.md R37). -/
def OpResult.onPorts (r : OpResult) : PortValue :=
  match r with
  | .codeword c => .encoder c.toPort
  | .corrected d pos => .decoder ⟨d.toPort, pos⟩
  | .bits _ => .noPort
  | .bitsResult _ => .noPort
  | .bytesResult _ => .noPort

end Sys2Proof.Machine
end

