-- ==== Sys2Proof/Machine/Sequencer.lean ====
section
/-! DEFINITION. The expansion of the pseudo-instructions into requests of the two blocks (30_encoding.md R44): which
requests the caller issues, and what it makes of their results. This is the second way to carry a call out, one step per
block (92_eei_decisions.md D14); 95_test_vectors.md section 8 writes it out. -/

namespace Sys2Proof.Machine

/-- The requests that a call issues to the blocks, in order; none when its first length check fails
(30_encoding.md R44, 95_test_vectors.md P6). -/
def blockRequests (p : Call) : List Instr :=
  match p with
  | .bytesToBits _ => []
  | .bitsToBytes _ => []
  | .encodeStream bits => if bits.length % Config.dataBits ≠ 0 then [] else (blocksOf bits).map .enc
  | .decodeStream bits => if bits.length % Config.codeBits ≠ 0 then [] else (wordsOf bits).map .dec
  | .encode bytes => (blocksOf (bytesToBits bytes)).map .enc
  | .decode bits => if bits.length % Config.codeBits ≠ 0 then [] else (wordsOf bits).map .dec

/-- The bits that one block result adds to the concatenation: a codeword, or a block without its position
(43_stream.md R75, R76). -/
def resultBits (r : OpResult) : BitSeq :=
  match r with
  | .codeword c => c.toList
  | .corrected d _ => d.toList
  | .bits _ => []
  | .bitsResult _ => []
  | .bytesResult _ => []

/-- What the caller makes of the block results: the length checks and the concatenation (30_encoding.md R44). -/
def assemble (p : Call) (rs : List OpResult) : OpResult :=
  match p with
  | .bytesToBits bytes => .bits (bytesToBits bytes)
  | .bitsToBytes bits => .bytesResult (bitsToBytes bits)
  | .encodeStream bits => .bitsResult (requireWhole Config.dataBits bits (.ok (rs.flatMap resultBits)))
  | .decodeStream bits => .bitsResult (requireWhole Config.codeBits bits (.ok (rs.flatMap resultBits)))
  | .encode _ => .bits (rs.flatMap resultBits)
  | .decode bits =>
    .bytesResult (requireWhole Config.codeBits bits
      (requireWhole Config.byteBits (rs.flatMap resultBits) (bitsToBytes (rs.flatMap resultBits))))

end Sys2Proof.Machine
end

