-- ==== Sys2Proof/Machine/Text.lean ====
section
/-! DEFINITION. The text form of a bit sequence, which is the caller's and outside the hardware (30_encoding.md R43,
00_scope.md R4; log 14): one character per bit, in order, with no separator, terminator or length prefix. -/

namespace Sys2Proof.Machine

/-- The character of a bit: '0' (0x30) for 0 and '1' (0x31) for 1 (30_encoding.md R43). -/
def renderBit (b : Bit) : Char := if b then '1' else '0'

/-- The text of a bit sequence. -/
def renderText (bits : BitSeq) : List Char := bits.map renderBit

/-- The bit of a character, none for any other character: the caller refuses such a text before the codec is reached
(92_eei_decisions.md D16, 93_implementation_defined.md U3). -/
def parseBit (ch : Char) : Option Bit :=
  if ch = '0' then some false else if ch = '1' then some true else none

/-- The bit sequence of a text, or none when the caller refuses the text. -/
def parseText (text : List Char) : Option BitSeq :=
  match text with
  | [] => some []
  | ch :: rest =>
    match parseBit ch, parseText rest with
    | some b, some bits => some (b :: bits)
    | _, _ => none

end Sys2Proof.Machine
end

