-- ==== Sys2Proof/Safety.lean ====
section
/-! DEFINITION. What claims about runs are stated in: which requests run, the value an operation has, and when the
results the caller has taken are sound. -/

namespace Sys2Proof.Machine

/-- A request of this spec: a word that names an operation, or any call (30_encoding.md R38, R40). -/
def Request.wellFormed (r : Request) : Bool :=
  match r with
  | .word w => RequestWord.wellFormed w
  | .call _ => true

/-- Every request the caller still holds is one of this spec. -/
def State.Runnable (s : State) : Prop := ∀ r ∈ s.requests, r.wellFormed = true

/-- The operation a request names; none for a word that names none (30_encoding.md R40). -/
def Request.op (r : Request) : Option Op :=
  match r with
  | .word w =>
    match decodeWord w with
    | .ok i => some (.block i)
    | .error _ => none
  | .call p => some (.call p)

/-- The value of each of the eight operations (30_encoding.md R38): a function of its own operands only (10_state.md
R11). -/
def Op.value (op : Op) : OpResult :=
  match op with
  | .block (.enc d) => .codeword (encodeBlock d)
  | .block (.dec c) => .corrected (decodeBlock c).1 (decodeBlock c).2
  | .call (.bytesToBits bytes) => .bits (bytesToBits bytes)
  | .call (.bitsToBytes bits) => .bytesResult (bitsToBytes bits)
  | .call (.encodeStream bits) => .bitsResult (encodeStream bits)
  | .call (.decodeStream bits) => .bitsResult (decodeStream bits)
  | .call (.encode bytes) => .bits (facadeEncode bytes)
  | .call (.decode bits) => .bytesResult (facadeDecode bits)

/-- The result is the failure (60_exceptions.md R85); a codeword, a corrected block or a plain bit sequence never is. -/
def OpResult.failed (r : OpResult) : Bool :=
  match r with
  | .codeword _ => false
  | .corrected _ _ => false
  | .bits _ => false
  | .bitsResult (.ok _) => false
  | .bitsResult (.fail _) => true
  | .bytesResult (.ok _) => false
  | .bytesResult (.fail _) => true

/-- An operation beside its value. -/
def Op.answered (op : Op) : Answer := ⟨op, op.value⟩

/-- Two sequences of equal length that differ in at most one bit of each group of 7 (43_stream.md R78). -/
def OneFlipPerCodeword (a b : BitSeq) : Prop :=
  a.length = b.length ∧ ∀ k, k < a.length / 7 → ones (slice (xorBits a b) (7 * k) (7 * k + 7)) ≤ 1

/-- A result is sound when it has the properties the spec promises of it, whatever computed it: a codeword is valid and
carries the block (40_encoder.md R48); a corrected block is that of the valid codeword which the received word becomes by
the flip that the position names (41_decoder.md R63), and so a decoded stream is what some encoded stream, one flip per
codeword away, carries; packing, encoded streams and encoded bytes invert, and all have the lengths of 42_bitpacker.md
R72, 43_stream.md R77, R78 and 44_facades.md R82, R83; a failure answers a bad length only (60_exceptions.md R86). -/
def Answer.Sound (a : Answer) : Prop :=
  match a.op, a.result with
  | .block (.enc d), .codeword c => isValid c = true ∧ extract c = d
  | .block (.dec w), .corrected d pos =>
    isValid (xorWord w (unit pos)) = true ∧ extract (xorWord w (unit pos)) = d
  | .call (.bytesToBits bytes), .bits s => s.length = 8 * bytes.length ∧ bitsToBytes s = .ok bytes
  | .call (.bitsToBytes bits), .bytesResult (.ok bytes) => bytesToBits bytes = bits
  | .call (.bitsToBytes bits), .bytesResult (.fail _) => ¬ 8 ∣ bits.length
  | .call (.encodeStream bits), .bitsResult (.ok s) => 4 * s.length = 7 * bits.length ∧ decodeStream s = .ok bits
  | .call (.encodeStream bits), .bitsResult (.fail _) => ¬ 4 ∣ bits.length
  | .call (.decodeStream bits), .bitsResult (.ok s) =>
    7 * s.length = 4 * bits.length ∧ ∃ t, encodeStream s = .ok t ∧ OneFlipPerCodeword t bits
  | .call (.decodeStream bits), .bitsResult (.fail _) => ¬ 7 ∣ bits.length
  | .call (.encode bytes), .bits s => s.length = 14 * bytes.length ∧ facadeDecode s = .ok bytes
  | .call (.decode bits), .bytesResult (.ok bytes) =>
    bits.length = 14 * bytes.length ∧ OneFlipPerCodeword (facadeEncode bytes) bits
  | .call (.decode bits), .bytesResult (.fail _) => ¬ 14 ∣ bits.length
  | _, _ => False

/-- Every result the caller has taken is sound. -/
def State.Sound (s : State) : Prop := ∀ a ∈ s.answers, a.Sound

/-- The number of bits of a call's bit sequence; a byte counts eight. -/
def Call.bitLength (p : Call) : Nat :=
  match p with
  | .bytesToBits bytes => 8 * bytes.length
  | .bitsToBytes bits => bits.length
  | .encodeStream bits => bits.length
  | .decodeStream bits => bits.length
  | .encode bytes => 8 * bytes.length
  | .decode bits => bits.length

/-- The premise of a claim about a realisation with bounded buffers: the request stays within the open parameter
`MAX_BITS` of 92_eei_decisions.md D11. The model itself is unbounded (log 8). -/
def Request.within (maxBits : Nat) (r : Request) : Bool :=
  match r with
  | .word _ => true
  | .call p => decide (p.bitLength ≤ maxBits)

end Sys2Proof.Machine
end

