-- ==== Sys2Proof/Certificates/Slice0/Obligations.lean ====
section
/-! DEFINITION. The statements for the provers. Each docstring says which rule of spec/ it formalises. A clause that says
where a RESULT is kept (`answers`) or what the caller's lists do rests on the model's own choice, log 1, 2 and 3, and such
a statement has basis derived. -/

open Sys2Proof Sys2Proof.Machine

/-! ## The encoder block (40_encoder.md) -/

/-- R45 whole: the pseudocode on sequences, the port equations, the request word, no state, no failure, the corner cases
and the worked example. -/
def Obligations.EncComputesTheCodeword : Prop :=
  (∀ d : Block4, encodeBlock d =
    ⟨d.d0 ^^ d.d1 ^^ d.d3, d.d0 ^^ d.d2 ^^ d.d3, d.d0, d.d1 ^^ d.d2 ^^ d.d3, d.d1, d.d2, d.d3⟩) ∧
  (∀ v : BitVec 4,
    (encoderBlock v).getLsbD 6 = (v.getLsbD 3 ^^ v.getLsbD 2 ^^ v.getLsbD 0) ∧
    (encoderBlock v).getLsbD 5 = (v.getLsbD 3 ^^ v.getLsbD 1 ^^ v.getLsbD 0) ∧
    (encoderBlock v).getLsbD 4 = v.getLsbD 3 ∧
    (encoderBlock v).getLsbD 3 = (v.getLsbD 2 ^^ v.getLsbD 1 ^^ v.getLsbD 0) ∧
    (encoderBlock v).getLsbD 2 = v.getLsbD 2 ∧
    (encoderBlock v).getLsbD 1 = v.getLsbD 1 ∧
    (encoderBlock v).getLsbD 0 = v.getLsbD 0) ∧
  (∀ d : Block4, (encodeWord (.enc d)).toNat = 0x00 + d.toPort.toNat ∧ encodeWord (.enc d) &&& 0xF0#8 = 0x00#8) ∧
  (∀ (d : Block4) (s : State), ∃ t, exec (.enc d) s = .next t ∧ t.blocks = s.blocks) ∧
  encodeBlock ⟨false, false, false, false⟩ = ⟨false, false, false, false, false, false, false⟩ ∧
  encodeBlock ⟨true, true, true, true⟩ = ⟨true, true, true, true, true, true, true⟩ ∧
  encodeBlock ⟨true, false, true, true⟩ = ⟨false, true, true, false, false, true, true⟩ ∧
  encoderBlock 0xB#4 = 0x33#7

/-- Completion and frame of ENC (R45, R10): from every state and for every block it answers the next state in which the
one new result is the codeword; the blocks, the requests left and every earlier result are as before. Where the result
stands is log 1. -/
def Obligations.EncCompletesAndChangesNothingElse : Prop :=
  ∀ (d : Block4) (s : State), exec (.enc d) s = .next
    { blocks := s.blocks
      requests := s.requests
      answers := s.answers ++ [⟨.block (.enc d), .codeword
        ⟨d.d0 ^^ d.d1 ^^ d.d3, d.d0 ^^ d.d2 ^^ d.d3, d.d0, d.d1 ^^ d.d2 ^^ d.d3, d.d1, d.d2, d.d3⟩⟩] }

/-- The complete function table of 40_encoder.md section 2 (R46, the spec's own inference from R45), with the parity bits, the codeword value and the weight of every block value. -/
def Obligations.EncFunctionTable : Prop :=
  (List.range 16).map (fun n =>
      let c := encodeBlock (Block4.ofPort (BitVec.ofNat 4 n))
      ([c.c0.toNat, c.c1.toNat, c.c3.toNat], c.toPort.toNat, weight c)) =
    [([0, 0, 0], 0x00, 0), ([1, 1, 1], 0x69, 4), ([0, 1, 1], 0x2A, 3), ([1, 0, 0], 0x43, 3),
     ([1, 0, 1], 0x4C, 3), ([0, 1, 0], 0x25, 3), ([1, 1, 0], 0x66, 4), ([0, 0, 1], 0x0F, 4),
     ([1, 1, 0], 0x70, 3), ([0, 0, 1], 0x19, 3), ([1, 0, 1], 0x5A, 4), ([0, 1, 0], 0x33, 4),
     ([0, 1, 1], 0x3C, 4), ([1, 0, 0], 0x55, 4), ([0, 0, 0], 0x16, 3), ([1, 1, 1], 0x7F, 7)]

/-- R47, the spec's own inference from R45: ENC is linear, and it is the product with the generator matrix G, whose rows are the codewords of the unit
blocks. -/
def Obligations.EncIsLinearWithGeneratorMatrix : Prop :=
  (∀ a b : Block4, encodeBlock (xorBlock a b) = xorWord (encodeBlock a) (encodeBlock b)) ∧
  encodeBlock ⟨false, false, false, false⟩ = ⟨false, false, false, false, false, false, false⟩ ∧
  (∃ g0 g1 g2 g3 : Codeword7,
    (g0.toPort = 0b1110000#7 ∧ g1.toPort = 0b1001100#7 ∧ g2.toPort = 0b0101010#7 ∧ g3.toPort = 0b1101001#7) ∧
    (encodeBlock ⟨true, false, false, false⟩ = g0 ∧ encodeBlock ⟨false, true, false, false⟩ = g1 ∧
      encodeBlock ⟨false, false, true, false⟩ = g2 ∧ encodeBlock ⟨false, false, false, true⟩ = g3) ∧
    ∀ d : Block4, encodeBlock d =
      xorWord (xorWord (cond d.d0 g0 (unit 0)) (cond d.d1 g1 (unit 0)))
        (xorWord (cond d.d2 g2 (unit 0)) (cond d.d3 g3 (unit 0))))

/-- R48, the spec's own inference from R45 and R34: ENC is injective, the block can be read back from the indices 2, 4, 5, 6, its image is the set of the 16
codewords of R46, and a word is one of them exactly when the source's three invariants hold, that is when
s1 = s2 = s3 = 0. -/
def Obligations.EncIsInjectiveOntoTheValidCodewords : Prop :=
  (∀ a b : Block4, encodeBlock a = encodeBlock b → a = b) ∧
  (∀ d : Block4, extract (encodeBlock d) = d) ∧
  (∀ c : Codeword7, (∃ d, encodeBlock d = c) ↔ c.toPort ∈ [0x00#7, 0x69#7, 0x2A#7, 0x43#7, 0x4C#7, 0x25#7, 0x66#7,
    0x0F#7, 0x70#7, 0x19#7, 0x5A#7, 0x33#7, 0x3C#7, 0x55#7, 0x16#7, 0x7F#7]) ∧
  (∀ c : Codeword7, (∃ d, encodeBlock d = c) ↔
    c.c0 = (c.c2 ^^ c.c4 ^^ c.c6) ∧ c.c1 = (c.c2 ^^ c.c5 ^^ c.c6) ∧ c.c3 = (c.c4 ^^ c.c5 ^^ c.c6)) ∧
  (∀ c : Codeword7, (∃ d, encodeBlock d = c) ↔ check1 c = false ∧ check2 c = false ∧ check3 c = false)

/-- R49, the spec's own inference: two different codewords differ in at least 3 bits and some two in exactly 3, the difference of two codewords is
a codeword, and the weights are 0 once, 3 seven times, 4 seven times and 7 once. -/
def Obligations.CodewordsDifferInAtLeastThreeBits : Prop :=
  (∀ a b : Block4, encodeBlock a ≠ encodeBlock b → 3 ≤ weight (xorWord (encodeBlock a) (encodeBlock b))) ∧
  (∃ a b : Block4, weight (xorWord (encodeBlock a) (encodeBlock b)) = 3) ∧
  (∀ a b : Block4, ∃ d, xorWord (encodeBlock a) (encodeBlock b) = encodeBlock d) ∧
  (∀ k : Nat, ((List.range 16).map fun n => weight (encodeBlock (Block4.ofPort (BitVec.ofNat 4 n)))).count k =
    if k = 0 ∨ k = 7 then 1 else if k = 3 ∨ k = 4 then 7 else 0)

/-! ## The decoder block (41_decoder.md) -/

/-- R55 whole: the pseudocode, the result ports, the request word, no state, no failure, the corner cases and the worked
example. -/
def Obligations.DecCorrectsAtMostOneBit : Prop :=
  (∀ c : Codeword7,
    let s1 := c.c0 ^^ c.c2 ^^ c.c4 ^^ c.c6
    let s2 := c.c1 ^^ c.c2 ^^ c.c5 ^^ c.c6
    let s3 := c.c3 ^^ c.c4 ^^ c.c5 ^^ c.c6
    let pos := s1.toNat + 2 * s2.toNat + 4 * s3.toNat
    let cc := if pos ≠ 0 then flipBit c (pos - 1) else c
    (decodeBlock c).1 = ⟨cc.c2, cc.c4, cc.c5, cc.c6⟩ ∧ (decodeBlock c).2.toNat = pos ∧ (pos ≠ 0 → pos - 1 ≤ 6)) ∧
  (∀ c : Codeword7, decoderBlock c.toPort = ⟨(decodeBlock c).1.toPort, (decodeBlock c).2⟩) ∧
  (∀ c : Codeword7, (encodeWord (.dec c)).toNat = 0x80 + c.toPort.toNat ∧ encodeWord (.dec c) &&& 0x80#8 = 0x80#8) ∧
  (∀ (c : Codeword7) (s : State), ∃ t, exec (.dec c) s = .next t ∧ t.blocks = s.blocks) ∧
  (∀ d : Block4, decodeBlock (encodeBlock d) = (d, 0#3)) ∧
  (∀ c : Codeword7,
    (errorPosition c = 1#3 ∨ errorPosition c = 2#3 ∨ errorPosition c = 4#3 →
      (decodeBlock c).1 = ⟨c.c2, c.c4, c.c5, c.c6⟩) ∧
    (errorPosition c = 3#3 → (decodeBlock c).1 = ⟨!c.c2, c.c4, c.c5, c.c6⟩) ∧
    (errorPosition c = 5#3 → (decodeBlock c).1 = ⟨c.c2, !c.c4, c.c5, c.c6⟩) ∧
    (errorPosition c = 6#3 → (decodeBlock c).1 = ⟨c.c2, c.c4, !c.c5, c.c6⟩) ∧
    (errorPosition c = 7#3 → (decodeBlock c).1 = ⟨c.c2, c.c4, c.c5, !c.c6⟩)) ∧
  decodeBlock ⟨false, false, false, false, false, false, false⟩ = (⟨false, false, false, false⟩, 0#3) ∧
  decodeBlock ⟨true, true, true, true, true, true, true⟩ = (⟨true, true, true, true⟩, 0#3) ∧
  decodeBlock ⟨false, true, false, false, false, true, true⟩ = (⟨true, false, true, true⟩, 3#3) ∧
  decoderBlock 0x23#7 = ⟨0xB#4, 3#3⟩

/-- Completion and frame of DEC (R55, R60, R10): from every state and for every word it answers the next state in which
the one new result is the block, in the closed form of R60, and the position; the blocks, the requests left and every
earlier result are as before. Where the result stands is log 1. -/
def Obligations.DecCompletesAndChangesNothingElse : Prop :=
  ∀ (c : Codeword7) (s : State),
    let s1 := c.c0 ^^ c.c2 ^^ c.c4 ^^ c.c6
    let s2 := c.c1 ^^ c.c2 ^^ c.c5 ^^ c.c6
    let s3 := c.c3 ^^ c.c4 ^^ c.c5 ^^ c.c6
    exec (.dec c) s = .next
      { blocks := s.blocks
        requests := s.requests
        answers := s.answers ++ [⟨.block (.dec c), .corrected
          ⟨c.c2 ^^ (s1 && s2 && !s3), c.c4 ^^ (s1 && !s2 && s3), c.c5 ^^ (!s1 && s2 && s3), c.c6 ^^ (s1 && s2 && s3)⟩
          (BitVec.ofNat 3 (s1.toNat + 2 * s2.toNat + 4 * s3.toNat))⟩] }

/-- R56: the three checks, each as the received parity bit against the parity of the received data bits, and on the
ports. -/
def Obligations.SyndromeIsTheRecomputedParity : Prop :=
  (∀ c : Codeword7,
    check1 c = (c.c0 ^^ c.c2 ^^ c.c4 ^^ c.c6) ∧
    check2 c = (c.c1 ^^ c.c2 ^^ c.c5 ^^ c.c6) ∧
    check3 c = (c.c3 ^^ c.c4 ^^ c.c5 ^^ c.c6)) ∧
  (∀ (p1 p2 p3 : Bit) (d : Block4),
    check1 ⟨p1, p2, d.d0, p3, d.d1, d.d2, d.d3⟩ = (p1 ^^ (d.d0 ^^ d.d1 ^^ d.d3)) ∧
    check2 ⟨p1, p2, d.d0, p3, d.d1, d.d2, d.d3⟩ = (p2 ^^ (d.d0 ^^ d.d2 ^^ d.d3)) ∧
    check3 ⟨p1, p2, d.d0, p3, d.d1, d.d2, d.d3⟩ = (p3 ^^ (d.d1 ^^ d.d2 ^^ d.d3)) ∧
    (check1 ⟨p1, p2, d.d0, p3, d.d1, d.d2, d.d3⟩ = false ↔ p1 = (encodeBlock d).c0) ∧
    (check2 ⟨p1, p2, d.d0, p3, d.d1, d.d2, d.d3⟩ = false ↔ p2 = (encodeBlock d).c1) ∧
    (check3 ⟨p1, p2, d.d0, p3, d.d1, d.d2, d.d3⟩ = false ↔ p3 = (encodeBlock d).c3)) ∧
  (∀ v : BitVec 7,
    (decoderBlock v).errPos.getLsbD 0 = (v.getLsbD 6 ^^ v.getLsbD 4 ^^ v.getLsbD 2 ^^ v.getLsbD 0) ∧
    (decoderBlock v).errPos.getLsbD 1 = (v.getLsbD 5 ^^ v.getLsbD 4 ^^ v.getLsbD 1 ^^ v.getLsbD 0) ∧
    (decoderBlock v).errPos.getLsbD 2 = (v.getLsbD 3 ^^ v.getLsbD 2 ^^ v.getLsbD 1 ^^ v.getLsbD 0))

/-- R57: the position is the sum of the weighted checks, without overflow, 0 exactly when no error is detected, and it is
returned whether or not a correction was made. -/
def Obligations.ErrorPositionIsTheWeightedSum : Prop :=
  ∀ c : Codeword7,
    (errorPosition c).toNat = (check1 c).toNat + 2 * (check2 c).toNat + 4 * (check3 c).toNat ∧
    (check1 c).toNat + 2 * (check2 c).toNat + 4 * (check3 c).toNat ≤ 7 ∧
    (errorPosition c = 0#3 ↔ check1 c = false ∧ check2 c = false ∧ check3 c = false) ∧
    (decodeBlock c).2 = errorPosition c

/-- R58: exactly the bit that the position names is complemented, none when it is zero; as a mask, the copy is
`c ^ unit(errorPosition)`. R59: the block is taken from the indices 2, 4, 5, 6 of the copy. -/
def Obligations.CorrectionFlipsTheNamedBitOnly : Prop :=
  (∀ c : Codeword7,
    (errorPosition c = 0#3 → correctedCopy c = c) ∧
    (errorPosition c ≠ 0#3 → correctedCopy c = flipBit c ((errorPosition c).toNat - 1) ∧
      weight (xorWord c (correctedCopy c)) = 1) ∧
    correctedCopy c = xorWord c (unit (errorPosition c))) ∧
  (∀ k : ErrPos, (unit k).toList = (List.range 7).map fun i => i + 1 == k.toNat) ∧
  (∀ (c : Codeword7) (i j : Nat), i < 7 → j < 7 →
    (flipBit c i).toList[j]? = (c.toList[j]?).map fun b => if j = i then !b else b) ∧
  (∀ c : Codeword7, (decodeBlock c).1 =
    ⟨(correctedCopy c).c2, (correctedCopy c).c4, (correctedCopy c).c5, (correctedCopy c).c6⟩)

/-- R60, the spec's own inference from R55: the closed form of the data outputs, on sequences and on the ports. -/
def Obligations.DecClosedFormWithoutTheCopy : Prop :=
  (∀ c : Codeword7,
    (decodeBlock c).1.d0 = (c.c2 ^^ (check1 c && check2 c && !check3 c)) ∧
    (decodeBlock c).1.d1 = (c.c4 ^^ (check1 c && !check2 c && check3 c)) ∧
    (decodeBlock c).1.d2 = (c.c5 ^^ (!check1 c && check2 c && check3 c)) ∧
    (decodeBlock c).1.d3 = (c.c6 ^^ (check1 c && check2 c && check3 c))) ∧
  (∀ v : BitVec 7,
    (decoderBlock v).dataOut.getLsbD 3 = (v.getLsbD 4 ^^ ((decoderBlock v).errPos == 3#3)) ∧
    (decoderBlock v).dataOut.getLsbD 2 = (v.getLsbD 2 ^^ ((decoderBlock v).errPos == 5#3)) ∧
    (decoderBlock v).dataOut.getLsbD 1 = (v.getLsbD 1 ^^ ((decoderBlock v).errPos == 6#3)) ∧
    (decoderBlock v).dataOut.getLsbD 0 = (v.getLsbD 0 ^^ ((decoderBlock v).errPos == 7#3)))

/-- R61: the two guarantees the source states, for every block and every index. -/
def Obligations.NoErrorIdentityAndSingleBitCorrection : Prop :=
  (∀ d : Block4, decodeBlock (encodeBlock d) = (d, 0#3)) ∧
  (∀ (d : Block4) (i : Nat), i < 7 → decodeBlock (flipBit (encodeBlock d) i) = (d, BitVec.ofNat 3 (i + 1)))

/-- R62, in part the spec's own inference from R55: what two or more flipped bits give. The sent block comes back exactly when at most one bit was flipped, two
flips report the exclusive-or of their positions and are always miscorrected, and of the 35 patterns of three flips the
7 that are codewords report nothing. It raises nothing. -/
def Obligations.SeveralFlipsAreSilentlyMiscorrected : Prop :=
  (∀ (d : Block4) (e : Codeword7),
    errorPosition (xorWord (encodeBlock d) e) = errorPosition e ∧
    ((decodeBlock (xorWord (encodeBlock d) e)).1 = d ↔ weight e ≤ 1)) ∧
  (∀ (d : Block4) (i j : ErrPos), i ≠ 0#3 → j ≠ 0#3 → i ≠ j →
    let w := xorWord (encodeBlock d) (xorWord (unit i) (unit j))
    (decodeBlock w).2 = i ^^^ j ∧ (decodeBlock w).2 ≠ 0#3 ∧ (decodeBlock w).2 ≠ i ∧ (decodeBlock w).2 ≠ j ∧
    correctedCopy w = xorWord w (unit (i ^^^ j)) ∧ (∃ d', correctedCopy w = encodeBlock d') ∧
    weight (xorWord (correctedCopy w) (encodeBlock d)) = 3 ∧ (decodeBlock w).1 ≠ d) ∧
  (∀ (d : Block4) (e : Codeword7), weight e = 3 →
    ((decodeBlock (xorWord (encodeBlock d) e)).2 = 0#3 ↔ ∃ t ∈ [(1#3, 2#3, 3#3), (1#3, 4#3, 5#3), (1#3, 6#3, 7#3),
      (2#3, 4#3, 6#3), (2#3, 5#3, 7#3), (3#3, 4#3, 7#3), (3#3, 5#3, 6#3)],
      e = xorWord (unit t.1) (xorWord (unit t.2.1) (unit t.2.2))) ∧
    ((decodeBlock (xorWord (encodeBlock d) e)).2 = 0#3 ↔ ∃ d', encodeBlock d' = e) ∧
    (decodeBlock (xorWord (encodeBlock d) e)).1 ≠ d) ∧
  ((List.range 128).countP fun n => weight (Codeword7.ofPort (BitVec.ofNat 7 n)) == 3) = 7 + 28 ∧
  (∀ (w : Codeword7) (s : State), ∃ t, exec (.dec w) s = .next t)

/-- R63, the spec's own inference: every word is within one flip of exactly one codeword, DEC returns the block of that nearest codeword, and each
block is returned for 8 of the 128 words and each position for 16. -/
def Obligations.DecReturnsTheNearestCodeword : Prop :=
  (∀ w : Codeword7, ∃ d, correctedCopy w = encodeBlock d) ∧
  (∀ w : Codeword7, ∃ d : Block4, weight (xorWord w (encodeBlock d)) ≤ 1 ∧ (decodeBlock w).1 = d ∧
    (∀ d', weight (xorWord w (encodeBlock d')) ≤ 1 → d' = d) ∧
    (∀ d', d' ≠ d → weight (xorWord w (encodeBlock d)) < weight (xorWord w (encodeBlock d')))) ∧
  (∀ w : Codeword7, encodeBlock (decodeBlock w).1 = xorWord w (unit (decodeBlock w).2)) ∧
  (∀ d : Block4, ((List.range 128).countP fun n => (decodeBlock (Codeword7.ofPort (BitVec.ofNat 7 n))).1 == d) = 8) ∧
  (∀ k : ErrPos, ((List.range 128).countP fun n => (decodeBlock (Codeword7.ofPort (BitVec.ofNat 7 n))).2 == k) = 16)

/-- R64, the spec's own inference from R56: the syndrome is linear, zero on codewords, `k` on `unit(k)`, and the product with the check matrix H, whose
column `k` is the number `k` with s1 least significant. -/
def Obligations.SyndromeIsLinearWithCheckMatrix : Prop :=
  (∀ a b : Codeword7, errorPosition (xorWord a b) = errorPosition a ^^^ errorPosition b) ∧
  (∀ d : Block4, errorPosition (encodeBlock d) = 0#3) ∧
  (∀ k : ErrPos, k ≠ 0#3 → errorPosition (unit k) = k) ∧
  (∃ h1 h2 h3 : Codeword7,
    (h1.toPort = 0b1010101#7 ∧ h2.toPort = 0b0110011#7 ∧ h3.toPort = 0b0001111#7) ∧
    (∀ c : Codeword7,
      (check1 c).toNat = ones (List.zipWith and h1.toList c.toList) % 2 ∧
      (check2 c).toNat = ones (List.zipWith and h2.toList c.toList) % 2 ∧
      (check3 c).toNat = ones (List.zipWith and h3.toList c.toList) % 2) ∧
    ∀ k, 1 ≤ k → k ≤ 7 → (h1.toList.getD (k - 1) false).toNat + 2 * (h2.toList.getD (k - 1) false).toNat
      + 4 * (h3.toList.getD (k - 1) false).toNat = k)

/-! ## Formats, ports and the operation map (10_state.md R18, 30_encoding.md) -/

/-- R30, R31, R32: the numbers of a block and of a word, and the port bit of every element; the layout of a codeword; the
position on its port, 0 for a codeword and else the 1-based position of a single flipped bit. -/
def Obligations.SequencesOnPortsMostSignificantFirst : Prop :=
  (∀ d : Block4, d.toPort.toNat = 8 * d.d0.toNat + 4 * d.d1.toNat + 2 * d.d2.toNat + d.d3.toNat ∧
    d.toPort.getLsbD 3 = d.d0 ∧ d.toPort.getLsbD 2 = d.d1 ∧ d.toPort.getLsbD 1 = d.d2 ∧ d.toPort.getLsbD 0 = d.d3 ∧
    Block4.ofPort d.toPort = d ∧ d.toList = [d.d0, d.d1, d.d2, d.d3]) ∧
  (∀ c : Codeword7, c.toPort.toNat = 64 * c.c0.toNat + 32 * c.c1.toNat + 16 * c.c2.toNat + 8 * c.c3.toNat
      + 4 * c.c4.toNat + 2 * c.c5.toNat + c.c6.toNat ∧
    (∀ i, i < 7 → some (c.toPort.getLsbD (6 - i)) = c.toList[i]?) ∧ Codeword7.ofPort c.toPort = c) ∧
  (∀ c : Codeword7,
    (errorPosition c).getLsbD 0 = check1 c ∧ (errorPosition c).getLsbD 1 = check2 c ∧
    (errorPosition c).getLsbD 2 = check3 c ∧
    (errorPosition c).toNat = (check1 c).toNat + 2 * (check2 c).toNat + 4 * (check3 c).toNat) ∧
  (∀ d : Block4, (encodeBlock d).toList = [parity1 d, parity2 d, d.d0, parity3 d, d.d1, d.d2, d.d3] ∧
    errorPosition (encodeBlock d) = 0#3 ∧
    ∀ i, i < 7 → (errorPosition (flipBit (encodeBlock d) i)).toNat = i + 1)

/-- R33, R34, R35: a codeword is assembled from the parity bits and the data bits, a block is taken out of the indices
2, 4, 5, 6, and check `s1` covers exactly the positions whose numeral has bit 0 set, `s2` bit 1, `s3` bit 2 (that last clause is the
spec's own inference from the index lists of R35). -/
def Obligations.OperandAssemblyAndCheckCoverage : Prop :=
  (∀ d : Block4, encodeBlock d = interleave (parity1 d) (parity2 d) (parity3 d) d ∧
    parity1 d = (d.d0 ^^ d.d1 ^^ d.d3) ∧ parity2 d = (d.d0 ^^ d.d2 ^^ d.d3) ∧ parity3 d = (d.d1 ^^ d.d2 ^^ d.d3) ∧
    interleave (parity1 d) (parity2 d) (parity3 d) d = ⟨parity1 d, parity2 d, d.d0, parity3 d, d.d1, d.d2, d.d3⟩) ∧
  (∀ cc : Codeword7, extract cc = ⟨cc.c2, cc.c4, cc.c5, cc.c6⟩) ∧
  (∀ c : Codeword7, check1 c = (c.c0 ^^ c.c2 ^^ c.c4 ^^ c.c6) ∧ check2 c = (c.c1 ^^ c.c2 ^^ c.c5 ^^ c.c6) ∧
    check3 c = (c.c3 ^^ c.c4 ^^ c.c5 ^^ c.c6)) ∧
  (∀ (c : Codeword7) (i : Nat), i < 7 →
    (check1 (flipBit c i) ≠ check1 c ↔ (i + 1).testBit 0 = true) ∧
    (check2 (flipBit c i) ≠ check2 c ↔ (i + 1).testBit 1 = true) ∧
    (check3 (flipBit c i) ≠ check3 c ↔ (i + 1).testBit 2 = true))

/-- R37: the request word of each operation, the masks and matches, what each word decodes to, and the result as the
value on the output ports. -/
def Obligations.RequestWordsOfTheOperationMap : Prop :=
  (∀ n : BitVec 4, encodeWord (.enc (Block4.ofPort n)) = n.setWidth 8 ∧
    decodeWord (n.setWidth 8) = .ok (.enc (Block4.ofPort n)) ∧
    (Op.block (.enc (Block4.ofPort n))).value.onPorts = .encoder (encoderBlock n)) ∧
  (∀ w : BitVec 7, encodeWord (.dec (Codeword7.ofPort w)) = 0x80#8 + w.setWidth 8 ∧
    decodeWord (0x80#8 + w.setWidth 8) = .ok (.dec (Codeword7.ofPort w)) ∧
    (Op.block (.dec (Codeword7.ofPort w))).value.onPorts = .decoder (decoderBlock w)) ∧
  (∀ r : RequestWord,
    ((∃ d, decodeWord r = .ok (.enc d)) ↔ r &&& 0xF0#8 = 0x00#8) ∧
    ((∃ c, decodeWord r = .ok (.dec c)) ↔ r &&& 0x80#8 = 0x80#8))

/-- R39, its counts being the spec's own inference: no operand is illegal. Every instruction runs from every state, 16 of the 128 words are valid codewords with
position 0, and each other word differs from exactly one valid codeword in exactly one bit. -/
def Obligations.NoOperandIsIllegal : Prop :=
  (∀ (i : Instr) (s : State), i.wellFormed = true ∧ ∃ t, exec i s = .next t) ∧
  ((List.range 128).countP fun n => isValid (Codeword7.ofPort (BitVec.ofNat 7 n))) = 16 ∧
  (∀ c : Codeword7, isValid c = true ↔ (decodeBlock c).2 = 0#3) ∧
  (∀ c : Codeword7, isValid c = false →
    ∃ v, isValid v = true ∧ weight (xorWord c v) = 1 ∧ ∀ v', isValid v' = true → weight (xorWord c v') = 1 → v' = v)

/-- R40: the words 0x10 to 0x7F name no operation and are refused by name, no other word is, and every operation has
exactly one request word. -/
def Obligations.UnnamedRequestWordsAreRefused : Prop :=
  (∀ w : RequestWord, decodeWord w = .error (.noOperation w) ↔ 0x10 ≤ w.toNat ∧ w.toNat ≤ 0x7F) ∧
  (∀ w : RequestWord, RequestWord.wellFormed w = true ↔ ∃ i, decodeWord w = .ok i) ∧
  (∀ (s : State) (w : RequestWord) (rest : List Request), s.requests = .word w :: rest →
    (step s = .refused (.noOperation w) ↔ 0x10 ≤ w.toNat ∧ w.toNat ≤ 0x7F)) ∧
  (∀ i : Instr, ∃ w, decodeWord w = .ok i ∧ ∀ w', decodeWord w' = .ok i → w' = w)

/-- Decode and encode agree on whole programs (R37, R40, 92_eei_decisions.md D9 "so that decoding and encoding of request
words are inverse to each other"): the words of every list of instructions decode to that list, whatever word follows a
first instruction, and every program that decodes is the words of what it decodes to. -/
def Obligations.ProgramsDecodeToWhatTheyEncode : Prop :=
  (∀ is : List Instr, decodeProgram (is.flatMap encode) = .ok is) ∧
  (∀ (i : Instr) (rest : List RequestWord), decode (encode i ++ rest) = .ok (i, rest)) ∧
  (∀ (ws : List RequestWord) (is : List Instr), decodeProgram ws = .ok is → is.flatMap encode = ws) ∧
  (∀ ws : List RequestWord, wellFormedProgram ws = true ↔ ∃ is, decodeProgram ws = .ok is)

/-- Words written out from R37 and 95_test_vectors.md (0x0B, 0xA3, 0x04, 0xD3) decode to what they stand for. -/
def Obligations.SampleRequestWordsDecode : Prop :=
  decodeWord 0b00001011#8 = .ok (.enc ⟨true, false, true, true⟩) ∧
  decodeWord 0b10100011#8 = .ok (.dec ⟨false, true, false, false, false, true, true⟩) ∧
  decodeWord 0b00000100#8 = .ok (.enc ⟨false, true, false, false⟩) ∧
  decodeWord 0b11010011#8 = .ok (.dec ⟨true, false, true, false, false, true, true⟩) ∧
  decodeWord 0b00010000#8 = .error (.noOperation 0x10#8)

/-- R36 and R22: a byte is assembled with the weights 128 down to 1 and taken apart the same way, most significant bit
first in both directions. -/
def Obligations.ByteBitsMostSignificantFirst : Prop :=
  (∀ b0 b1 b2 b3 b4 b5 b6 b7 : Bit,
    (byteOfBits b0 b1 b2 b3 b4 b5 b6 b7).toNat = 128 * b0.toNat + 64 * b1.toNat + 32 * b2.toNat + 16 * b3.toNat
      + 8 * b4.toNat + 4 * b5.toNat + 2 * b6.toNat + b7.toNat ∧
    bytesToBits [byteOfBits b0 b1 b2 b3 b4 b5 b6 b7] = [b0, b1, b2, b3, b4, b5, b6, b7] ∧
    bitsToBytes [b0, b1, b2, b3, b4, b5, b6, b7] = .ok [byteOfBits b0 b1 b2 b3 b4 b5 b6 b7]) ∧
  (∀ b : Byte, ∃ b0 b1 b2 b3 b4 b5 b6 b7, byteOfBits b0 b1 b2 b3 b4 b5 b6 b7 = b) ∧
  bytesToBits [0x41#8] = [false, true, false, false, false, false, false, true] ∧
  bitsToBytes [false, true, false, false, false, false, false, true] = .ok [0x41#8]

/-- R23, and what follows from it (DEDUCED): each byte yields two blocks, the high nibble first, `d0` the more significant bit; streams are concatenated in
input order, so the codewords of two whole sequences stand one after the other, and likewise their decodings. -/
def Obligations.UnitsStandInInputOrder : Prop :=
  (∀ bytes : ByteSeq, blocksOf (bytesToBits bytes) =
    bytes.flatMap fun b => [Block4.ofPort (BitVec.ofNat 4 (b.toNat / 16)), Block4.ofPort (BitVec.ofNat 4 (b.toNat % 16))]) ∧
  (∀ s t c : BitSeq, encodeStream s = .ok c → ∀ c', encodeStream t = .ok c' → encodeStream (s ++ t) = .ok (c ++ c')) ∧
  (∀ s t d : BitSeq, decodeStream s = .ok d → ∀ d', decodeStream t = .ok d' → decodeStream (s ++ t) = .ok (d ++ d')) ∧
  (∀ (s t : BitSeq) (a : ByteSeq), bitsToBytes s = .ok a → ∀ b, bitsToBytes t = .ok b →
    bitsToBytes (s ++ t) = .ok (a ++ b))

/-! ## The pseudo-instructions (42_bitpacker.md, 43_stream.md, 44_facades.md) -/

/-- R70: the length, every bit, the corner cases and the example of `bytesToBits`. -/
def Obligations.BytesToBitsGivesEveryBit : Prop :=
  (∀ bytes : ByteSeq, (bytesToBits bytes).length = 8 * bytes.length ∧ (bytesToBits bytes).length % 4 = 0 ∧
    ∀ (j : Nat) (b : Byte), bytes[j]? = some b → ∀ i, i < 8 →
      ((bytesToBits bytes)[8 * j + i]?).map Bool.toNat = some (b.toNat / 2 ^ (7 - i) % 2)) ∧
  (∀ (bytes : ByteSeq) (s : State), ∃ t, execCall (.bytesToBits bytes) s = .next t ∧ t.blocks = s.blocks) ∧
  bytesToBits [] = [] ∧
  bytesToBits [0x00#8] = [false, false, false, false, false, false, false, false] ∧
  bytesToBits [0xFF#8] = [true, true, true, true, true, true, true, true] ∧
  bytesToBits [0x80#8] = [true, false, false, false, false, false, false, false] ∧
  bytesToBits [0x01#8] = [false, false, false, false, false, false, false, true] ∧
  bytesToBits [0x41#8] = [false, true, false, false, false, false, false, true]

/-- R71: the failure, the length, the value of every byte, the corner cases and the examples of `bitsToBytes`. -/
def Obligations.BitsToBytesGivesEveryByte : Prop :=
  (∀ bits : BitSeq, bits.length % 8 ≠ 0 → bitsToBytes bits = .fail .malformedLength) ∧
  (∀ bits : BitSeq, bits.length % 8 = 0 → ∃ bytes, bitsToBytes bits = .ok bytes ∧ bytes.length = bits.length / 8 ∧
    ∀ (j : Nat) (b : Byte), bytes[j]? = some b → ∃ g0 g1 g2 g3 g4 g5 g6 g7 : Bit,
      slice bits (8 * j) (8 * j + 8) = [g0, g1, g2, g3, g4, g5, g6, g7] ∧
      b.toNat = 128 * g0.toNat + 64 * g1.toNat + 32 * g2.toNat + 16 * g3.toNat + 8 * g4.toNat + 4 * g5.toNat
        + 2 * g6.toNat + g7.toNat) ∧
  (∀ (bits : BitSeq) (s : State), ∃ t, execCall (.bitsToBytes bits) s = .next t ∧ t.blocks = s.blocks) ∧
  bitsToBytes [] = .ok [] ∧
  bitsToBytes [false, true, false, false, false, false, false, true] = .ok [0x41#8] ∧
  bitsToBytes [false, true, false, false, false, false, false] = .fail .malformedLength

/-- R72, the spec's own inference from R70 and R71: the two conversions are inverse to each other where both are defined. -/
def Obligations.PackingIsLossless : Prop :=
  (∀ b : ByteSeq, bitsToBytes (bytesToBits b) = .ok b) ∧
  (∀ (s : BitSeq) (b : ByteSeq), s.length % 8 = 0 → bitsToBytes s = .ok b → bytesToBits b = s)

/-- R75: the check on the whole length first, then each block of 4 gives its codeword at its own place. -/
def Obligations.EncodeStreamIsBlockwiseEnc : Prop :=
  (∀ bits : BitSeq, bits.length % 4 ≠ 0 → encodeStream bits = .fail .malformedLength) ∧
  (∀ bits : BitSeq, bits.length % 4 = 0 → ∃ out, encodeStream bits = .ok out ∧ out.length = bits.length * 7 / 4 ∧
    ∀ k, k < bits.length / 4 → ∃ d : Block4, d.toList = slice bits (4 * k) (4 * k + 4) ∧
      slice out (7 * k) (7 * k + 7) = (encodeBlock d).toList) ∧
  (∀ (bits : BitSeq) (s : State), ∃ t, execCall (.encodeStream bits) s = .next t ∧ t.blocks = s.blocks) ∧
  encodeStream [] = .ok [] ∧
  encodeStream [false, true, false, false, false, false, false, true] =
    .ok [true, false, false, true, true, false, false, true, true, false, true, false, false, true]

/-- R76: the check on the whole length first, then each word of 7 gives its corrected block at its own place. -/
def Obligations.DecodeStreamIsWordwiseDec : Prop :=
  (∀ bits : BitSeq, bits.length % 7 ≠ 0 → decodeStream bits = .fail .malformedLength) ∧
  (∀ bits : BitSeq, bits.length % 7 = 0 → ∃ out, decodeStream bits = .ok out ∧ out.length = bits.length * 4 / 7 ∧
    ∀ k, k < bits.length / 7 → ∃ c : Codeword7, c.toList = slice bits (7 * k) (7 * k + 7) ∧
      slice out (4 * k) (4 * k + 4) = (decodeBlock c).1.toList) ∧
  (∀ (bits : BitSeq) (s : State), ∃ t, execCall (.decodeStream bits) s = .next t ∧ t.blocks = s.blocks) ∧
  decodeStream [] = .ok [] ∧
  decodeStream [true, false, false, true, true, false, false, true, true, false, true, false, false, true] =
    .ok [false, true, false, false, false, false, false, true] ∧
  decodeStream [true, false, true, true, true, false, false, true, true, false, true, false, false, false] =
    .ok [false, true, false, false, false, false, false, true]

/-- R77: the length laws, both divisions exact. -/
def Obligations.StreamLengthLaws : Prop :=
  (∀ bits : BitSeq, bits.length % 4 = 0 → 4 ∣ bits.length * 7 ∧
    ∃ out, encodeStream bits = .ok out ∧ out.length = bits.length * 7 / 4) ∧
  (∀ bits : BitSeq, bits.length % 7 = 0 → 7 ∣ bits.length * 4 ∧
    ∃ out, decodeStream bits = .ok out ∧ out.length = bits.length * 4 / 7)

/-- R78, the spec's own inference: a stream with at most one flip per codeword decodes to what was sent; a codeword with two or more flips gives
four wrong bits, and only those. -/
def Obligations.StreamCorrectsOneFlipPerCodeword : Prop :=
  ∀ s : BitSeq, s.length % 4 = 0 → ∃ c, encodeStream s = .ok c ∧ decodeStream c = .ok s ∧
    ∀ e : BitSeq, e.length = s.length * 7 / 4 → ∃ out, decodeStream (xorBits c e) = .ok out ∧ out.length = s.length ∧
      ((∀ k, k < s.length / 4 → ones (slice e (7 * k) (7 * k + 7)) ≤ 1) → out = s) ∧
      ∀ k, k < s.length / 4 → (slice out (4 * k) (4 * k + 4) = slice s (4 * k) (4 * k + 4) ↔
        ones (slice e (7 * k) (7 * k + 7)) ≤ 1)

/-- R80, its nibble clause being the spec's own inference from R70 and R75: `encode` is `encodeStream` after `bytesToBits`, never a failure, 14 bits a byte, the codeword of the high nibble
first. -/
def Obligations.EncodeFacadeNeverFails : Prop :=
  (∀ bytes : ByteSeq, encodeStream (bytesToBits bytes) = .ok (facadeEncode bytes) ∧
    (facadeEncode bytes).length = 14 * bytes.length ∧
    ∀ (j : Nat) (b : Byte), bytes[j]? = some b →
      slice (facadeEncode bytes) (14 * j) (14 * j + 7) =
        (encodeBlock (Block4.ofPort (BitVec.ofNat 4 (b.toNat / 16)))).toList ∧
      slice (facadeEncode bytes) (14 * j + 7) (14 * j + 14) =
        (encodeBlock (Block4.ofPort (BitVec.ofNat 4 (b.toNat % 16)))).toList) ∧
  (∀ (bytes : ByteSeq) (s : State), ∃ t, execCall (.encode bytes) s = .next t ∧ t.blocks = s.blocks) ∧
  facadeEncode [] = [] ∧
  facadeEncode [0x41#8] =
    [true, false, false, true, true, false, false, true, true, false, true, false, false, true]

/-- R81: the two checks of `decode` in their order, the value and its length, the corner cases and the examples. -/
def Obligations.DecodeFacadeChecksTwice : Prop :=
  (∀ bits : BitSeq, bits.length % 7 ≠ 0 →
    decodeStream bits = .fail .malformedLength ∧ facadeDecode bits = .fail .malformedLength) ∧
  (∀ bits : BitSeq, bits.length % 7 = 0 → ∃ decoded, decodeStream bits = .ok decoded ∧
    decoded.length = bits.length * 4 / 7 ∧
    (decoded.length % 8 ≠ 0 → facadeDecode bits = .fail .malformedLength) ∧
    (decoded.length % 8 = 0 → facadeDecode bits = bitsToBytes decoded ∧
      ∃ bytes, facadeDecode bits = .ok bytes ∧ bytes.length = bits.length / 14)) ∧
  (∀ (bits : BitSeq) (s : State), ∃ t, execCall (.decode bits) s = .next t ∧ t.blocks = s.blocks) ∧
  facadeDecode [] = .ok [] ∧
  facadeDecode [true, false, false, true, true, false, false, true, true, false, true, false, false, true] =
    .ok [0x41#8] ∧
  facadeDecode [true, false, false, true, true, false, false] = .fail .malformedLength ∧
  facadeDecode [true, false, false, true, true, false] = .fail .malformedLength

/-- R82, the spec's own inference from R81 and R77: `decode` succeeds exactly on the lengths that are multiples of 14; a length `7m` decodes to `4m` bits, a
multiple of 8 exactly when `m` is even. -/
def Obligations.DecodeSucceedsOnMultiplesOfFourteen : Prop :=
  (∀ bits : BitSeq, (∃ bytes, facadeDecode bits = .ok bytes) ↔ bits.length % 14 = 0) ∧
  (∀ bits : BitSeq, facadeDecode bits = .fail .malformedLength ↔ bits.length % 14 ≠ 0) ∧
  (∀ (bits : BitSeq) (m : Nat), bits.length = 7 * m →
    ∃ out, decodeStream bits = .ok out ∧ out.length = 4 * m ∧ (out.length % 8 = 0 ↔ m % 2 = 0))

/-- R83: the round trip of whole byte sequences, and its stronger form, the spec's own inference, under at most one flip in each group of 7. -/
def Obligations.RoundTripUnderOneFlipPerCodeword : Prop :=
  (∀ b : ByteSeq, facadeDecode (facadeEncode b) = .ok b) ∧
  (∀ (b : ByteSeq) (e : BitSeq), e.length = 14 * b.length →
    (∀ k, k < 2 * b.length → ones (slice e (7 * k) (7 * k + 7)) ≤ 1) →
    facadeDecode (xorBits (facadeEncode b) e) = .ok b)

/-- Completion and frame of the six calls (R38, R90, D14): each answers, from every state and for every argument, the
next state in which the one new result is its value; the blocks, the requests left and every earlier result are as
before, also when the value is the failure. That the machine runs calls is log 3. -/
def Obligations.CallsCompleteAndChangeNothingElse : Prop :=
  ∀ (s : State) (bytes : ByteSeq) (bits : BitSeq),
    execCall (.bytesToBits bytes) s = .next
      { s with answers := s.answers ++ [⟨.call (.bytesToBits bytes), .bits (bytesToBits bytes)⟩] } ∧
    execCall (.bitsToBytes bits) s = .next
      { s with answers := s.answers ++ [⟨.call (.bitsToBytes bits), .bytesResult (bitsToBytes bits)⟩] } ∧
    execCall (.encodeStream bits) s = .next
      { s with answers := s.answers ++ [⟨.call (.encodeStream bits), .bitsResult (encodeStream bits)⟩] } ∧
    execCall (.decodeStream bits) s = .next
      { s with answers := s.answers ++ [⟨.call (.decodeStream bits), .bitsResult (decodeStream bits)⟩] } ∧
    execCall (.encode bytes) s = .next
      { s with answers := s.answers ++ [⟨.call (.encode bytes), .bits (facadeEncode bytes)⟩] } ∧
    execCall (.decode bits) s = .next
      { s with answers := s.answers ++ [⟨.call (.decode bits), .bytesResult (facadeDecode bits)⟩] }

/-! ## Failures (60_exceptions.md) -/

/-- R86: every point that raises `MalformedLength` and every operation that cannot. -/
def Obligations.FailurePointsTable : Prop :=
  (∀ d, (Op.block (.enc d)).value.failed = false) ∧
  (∀ c, (Op.block (.dec c)).value.failed = false) ∧
  (∀ bytes, (Op.call (.bytesToBits bytes)).value.failed = false) ∧
  (∀ bits, (Op.call (.bitsToBytes bits)).value.failed = true ↔ bits.length % 8 ≠ 0) ∧
  (∀ bits, (Op.call (.encodeStream bits)).value.failed = true ↔ bits.length % 4 ≠ 0) ∧
  (∀ bits, (Op.call (.decodeStream bits)).value.failed = true ↔ bits.length % 7 ≠ 0) ∧
  (∀ bytes, (Op.call (.encode bytes)).value.failed = false) ∧
  (∀ bits, (Op.call (.decode bits)).value.failed = true ↔
    bits.length % 7 ≠ 0 ∨ bits.length % 7 = 0 ∧ bits.length * 4 / 7 % 8 ≠ 0)

/-- R85, R88: a failure is determined by the length of the input alone and never by the values of its bits. -/
def Obligations.FailureDependsOnLengthAlone : Prop :=
  ∀ a b : BitSeq, a.length = b.length →
    ((Op.call (.bitsToBytes a)).value.failed = (Op.call (.bitsToBytes b)).value.failed) ∧
    ((Op.call (.encodeStream a)).value.failed = (Op.call (.encodeStream b)).value.failed) ∧
    ((Op.call (.decodeStream a)).value.failed = (Op.call (.decodeStream b)).value.failed) ∧
    ((Op.call (.decode a)).value.failed = (Op.call (.decode b)).value.failed)

/-- R89, R44 (95_test_vectors.md P6): when the first length check fails no request reaches the blocks; when only the
second check of `decode` fails every word has been decoded, and the result is still the failure with no bytes. -/
def Obligations.LengthCheckComesBeforeEveryBlock : Prop :=
  (∀ bits : BitSeq, bits.length % 4 ≠ 0 → blockRequests (.encodeStream bits) = []) ∧
  (∀ bits : BitSeq, bits.length % 7 ≠ 0 →
    blockRequests (.decodeStream bits) = [] ∧ blockRequests (.decode bits) = []) ∧
  (∀ bits : BitSeq, bits.length % 7 = 0 → bits.length * 4 / 7 % 8 ≠ 0 →
    (blockRequests (.decode bits)).length = bits.length / 7 ∧
    facadeDecode bits = .fail .malformedLength)

/-- R107, R108: in the expansion into block requests a stream operation takes as many block steps as it has blocks. -/
def Obligations.OneBlockStepPerBlock : Prop :=
  (∀ bits : BitSeq, bits.length % 4 = 0 → (blockRequests (.encodeStream bits)).length = bits.length / 4) ∧
  (∀ bits : BitSeq, bits.length % 7 = 0 → (blockRequests (.decodeStream bits)).length = bits.length / 7) ∧
  (∀ bytes : ByteSeq, (blockRequests (.encode bytes)).length = 2 * bytes.length) ∧
  (∀ bits : BitSeq, bits.length % 7 = 0 → (blockRequests (.decode bits)).length = bits.length / 7)

/-- R90 and R91: "there is no global/fatal error state". No step of the machine ends in a fault, and the only refusals are a word
that names no operation (R40) and the end of the caller's list (D23, log 4). -/
def Obligations.NoStepFaultsAndRefusalsAreNamed : Prop :=
  (∀ (s : State) (f : Fault), step s ≠ .fault f) ∧
  (∀ (s : State) (r : Refusal), step s = .refused r ↔
    (s.requests = [] ∧ r = .runEnded) ∨
    ∃ w rest, s.requests = .word w :: rest ∧ 0x10 ≤ w.toNat ∧ w.toNat ≤ 0x7F ∧ r = .noOperation w)

/-! ## The machine (10_state.md, 20_memory.md, 70_reset_and_hazards.md) -/

/-- A step runs the decoded instruction: when the next request word decodes to `i`, the step is `exec` of `i` at the
state with that request taken off the list, and nothing else is added around it (R12, R37, log 1). Presenting the word of
`i` in front of any list and stepping is `exec` of `i`. -/
def Obligations.StepRunsTheDecodedInstruction : Prop :=
  (∀ (s : State) (w : RequestWord) (rest : List Request) (i : Instr), s.requests = .word w :: rest →
    decode [w] = .ok (i, []) → step s = exec i { s with requests := rest }) ∧
  (∀ (s : State) (i : Instr), step (s.withFetchWord 8 (encodeWord i).toNat) = exec i s)

/-- A step carries out the next call, at the state with that request taken off the list (R2, R44; log 3), and with no
request left the run has ended (D23; log 4). -/
def Obligations.StepRunsTheNextCall : Prop :=
  (∀ (s : State) (p : Call) (rest : List Request), s.requests = .call p :: rest →
    step s = execCall p { s with requests := rest }) ∧
  (∀ s : State, s.requests = [] → step s = .refused .runEnded)

/-- R11, R50, R65: two states that present the same request, whatever else they hold, get the same result; each keeps its
own other requests and earlier results. -/
def Obligations.ResultDependsOnTheRequestAlone : Prop :=
  ∀ (s t : State) (r : Request) (qs qt : List Request), s.requests = r :: qs → t.requests = r :: qt →
    r.wellFormed = true → ∃ a, step s = .next { blocks := s.blocks, requests := qs, answers := s.answers ++ [a] } ∧
      step t = .next { blocks := t.blocks, requests := qt, answers := t.answers ++ [a] }

/-- R26, R91: repeating an operation gives the same result again, a failure included. -/
def Obligations.RepeatingARequestRepeatsItsResult : Prop :=
  ∀ (s : State) (r : Request) (rest : List Request), s.requests = r :: r :: rest → r.wellFormed = true →
    ∃ a, Host.Core.run core 2 s = .next { blocks := s.blocks, requests := rest, answers := s.answers ++ [a, a] }

/-- A runnable machine with a request left takes a next step, stays runnable and has one request less (R28, R92, R107:
every operation, once started, runs to its result and terminates). -/
def Obligations.RunnableMachinesMakeProgress : Prop :=
  ∀ s : State, s.Runnable → s.requests ≠ [] →
    ∃ t, step s = .next t ∧ t.Runnable ∧ t.requests.length + 1 = s.requests.length

/-- R12, D23: the requests at the front of any list are evaluated first to last, one result each, in the same order; the
requests behind them wait. -/
def Obligations.RequestsAreAnsweredFirstToLast : Prop :=
  ∀ (s : State) (qs rest : List Request), s.requests = qs ++ rest → (∀ r ∈ qs, r.wellFormed = true) →
    ∃ ops : List Op, qs.map Request.op = ops.map some ∧
      Host.Core.run core qs.length s =
        .next { blocks := s.blocks, requests := rest, answers := s.answers ++ ops.map Op.answered }

/-- R27: the same requests in another order give the same results in another order. -/
def Obligations.OrderOfRequestsDoesNotMatter : Prop :=
  ∀ s t : State, s.Runnable → List.Perm s.requests t.requests → ∃ (as bs : List Answer),
    Host.Core.run core s.requests.length s =
      .next { blocks := s.blocks, requests := [], answers := s.answers ++ as } ∧
    Host.Core.run core t.requests.length t =
      .next { blocks := t.blocks, requests := [], answers := t.answers ++ bs } ∧
    List.Perm as bs

/-- R44: every pseudo-instruction equals its expansion. From every state that presents the block requests of a call, the
machine answers them one a step, and what the caller assembles from the results is the value of the call. -/
def Obligations.CallsEqualTheirBlockExpansion : Prop :=
  ∀ (p : Call) (s : State) (rest : List Request),
    s.requests = (blockRequests p).map (fun i => Request.word (encodeWord i)) ++ rest →
    ∃ as : List Answer,
      Host.Core.run core (blockRequests p).length s =
        .next { blocks := s.blocks, requests := rest, answers := s.answers ++ as } ∧
      as.map Answer.op = (blockRequests p).map Op.block ∧
      assemble p (as.map Answer.result) = (Op.call p).value

/-- Every step keeps every result sound, in the sense of `Answer.Sound` (Safety.lean): codewords are valid and carry their
block (R48), corrected blocks are those of the codeword one named flip away (R63), packing, streams and facades invert
and have their lengths (R72, R77, R78, R82, R83), and failures answer bad lengths only (R86). -/
def Obligations.EveryStepKeepsResultsSound : Prop :=
  ∀ s t : State, s.Sound → step s = .next t → t.Sound

/-- After reset every result is sound, since there is none (R100; log 2). -/
def Obligations.ResetResultsAreSound : Prop := State.reset.Sound

/-- R100 and R10: the hardware's state has one value, and it is that value after reset. That the caller's lists are then
empty is log 2. -/
def Obligations.ResetLeavesTheUnitState : Prop :=
  (∀ a b : Blocks, a = b) ∧ State.reset.blocks = () ∧ State.reset.requests = [] ∧ State.reset.answers = []

/-! ## The text form (30_encoding.md R43, 70_reset_and_hazards.md R106) -/

/-- R43: a bit sequence and its text of '0' and '1' characters determine each other, one character per bit, and a text
with any other character is refused (D16). -/
def Obligations.TextFormIsOneCharacterPerBit : Prop :=
  (∀ bits : BitSeq, (renderText bits).length = bits.length ∧ parseText (renderText bits) = some bits) ∧
  (∀ (text : List Char) (bits : BitSeq), parseText text = some bits → renderText bits = text) ∧
  (∀ text : List Char, parseText text = none ↔ ∃ ch ∈ text, ch ≠ '0' ∧ ch ≠ '1')
end

