-- ==== Sys2Proof/Laws/State.lean ====
section
/-! SUPPORT. One lemma per field per update of State, true by rfl. -/

namespace Sys2Proof.Machine

@[simp] theorem State.answer_blocks (s : State) (op : Op) (r : OpResult) : (s.answer op r).blocks = s.blocks := rfl
@[simp] theorem State.answer_requests (s : State) (op : Op) (r : OpResult) : (s.answer op r).requests = s.requests := rfl
@[simp] theorem State.answer_answers (s : State) (op : Op) (r : OpResult) :
    (s.answer op r).answers = s.answers ++ [⟨op, r⟩] := rfl

@[simp] theorem State.present_blocks (s : State) (r : Request) : (s.present r).blocks = s.blocks := rfl
@[simp] theorem State.present_requests (s : State) (r : Request) : (s.present r).requests = r :: s.requests := rfl
@[simp] theorem State.present_answers (s : State) (r : Request) : (s.present r).answers = s.answers := rfl

end Sys2Proof.Machine
end

