-- ==== Sys2Proof/Laws/Ops.lean ====
section
/-! SUPPORT. One lemma per shared operation, saying all it can do. -/

namespace Sys2Proof.Machine

/-- Fetching finds nothing exactly when the list is empty. -/
theorem State.fetch_eq_none {s : State} : s.fetch = none ↔ s.requests = [] := by
  unfold State.fetch; split <;> simp_all

/-- Fetching takes exactly the first request and changes nothing else. -/
theorem State.fetch_eq_some {s t : State} {r : Request} :
    s.fetch = some (r, t) ↔ s.requests = r :: t.requests ∧ t.answers = s.answers := by
  obtain ⟨b, q, a⟩ := s
  obtain ⟨b', q', a'⟩ := t
  cases q with
  | nil => simp [State.fetch]
  | cons r' rest => simp [State.fetch]; tauto

/-- A request put in front is the next one fetched. -/
@[simp] theorem State.fetch_present (s : State) (r : Request) : (s.present r).fetch = some (r, s) := rfl

/-- The length check fails exactly on a length that is no multiple, and otherwise changes nothing. -/
theorem requireWhole_of_dvd {α β : Type} {n : Nat} {s : List α} (h : n ∣ s.length) (r : Result β) :
    requireWhole n s r = r := by
  simp [requireWhole, Nat.mod_eq_zero_of_dvd h]

theorem requireWhole_of_not_dvd {α β : Type} {n : Nat} {s : List α} (h : ¬ n ∣ s.length) (r : Result β) :
    requireWhole n s r = .fail .malformedLength := by
  simp [requireWhole, raise, Nat.dvd_iff_mod_eq_zero] at h ⊢
  exact fun h' => absurd h' h

/-- If the length check answers `ok`, the length is a multiple and the answer is the one behind the check. -/
theorem requireWhole_eq_ok {α β : Type} {n : Nat} {s : List α} {r : Result β} {v : β} :
    requireWhole n s r = .ok v ↔ n ∣ s.length ∧ r = .ok v := by
  by_cases h : n ∣ s.length
  · simp [requireWhole_of_dvd h, h]
  · simp [requireWhole_of_not_dvd h, h]

@[simp] theorem xorBits_length (a b : BitSeq) : (xorBits a b).length = min a.length b.length := by
  simp [xorBits]

@[simp] theorem Block4.length_toList (d : Block4) : d.toList.length = 4 := rfl
@[simp] theorem Codeword7.length_toList (c : Codeword7) : c.toList.length = 7 := rfl
@[simp] theorem bitsOfByte_length (b : Byte) : (bitsOfByte b).length = 8 := rfl

/-- Grouping a sequence whose first element is a whole group takes that group off. -/
@[simp] theorem blocksOf_toList_append (d : Block4) (s : BitSeq) : blocksOf (d.toList ++ s) = d :: blocksOf s := rfl
@[simp] theorem wordsOf_toList_append (c : Codeword7) (s : BitSeq) : wordsOf (c.toList ++ s) = c :: wordsOf s := rfl

/-- A byte's bits reassemble to the byte. -/
theorem bytesOf_bitsOfByte_append (b : Byte) (s : BitSeq) : bytesOf (bitsOfByte b ++ s) = b :: bytesOf s := by
  have h : ∀ b : Byte, bytesOf (bitsOfByte b) = [b] := by decide
  have h' : bytesOf (bitsOfByte b ++ s) = (bytesOf (bitsOfByte b)) ++ bytesOf s := rfl
  rw [h', h]; rfl

end Sys2Proof.Machine
end

