-- ==== Sys2Proof/Laws/Codec.lean ====
section
/-! SUPPORT. Lemmas on blocks, words and groups that later proofs cite instead of unfolding the codec. -/

namespace Sys2Proof.Machine

/-- A fact about every block is a fact about four bits. -/
theorem Block4.forall_bits {P : Block4 → Prop} : (∀ d, P d) ↔ ∀ a b c e, P ⟨a, b, c, e⟩ :=
  ⟨fun h _ _ _ _ => h _, fun h ⟨a, b, c, e⟩ => h a b c e⟩

/-- A fact about every 7-bit word is a fact about seven bits. -/
theorem Codeword7.forall_bits {P : Codeword7 → Prop} :
    (∀ w, P w) ↔ ∀ a b c d e f g, P ⟨a, b, c, d, e, f, g⟩ :=
  ⟨fun h _ _ _ _ _ _ _ => h _, fun h ⟨a, b, c, d, e, f, g⟩ => h a b c d e f g⟩

/-- Reading the data bits back out of a codeword gives the block. -/
@[simp] theorem extract_encodeBlock (d : Block4) : extract (encodeBlock d) = d := rfl

/-- The three checks of an encoder's codeword are 0. -/
theorem isValid_encodeBlock : ∀ d, isValid (encodeBlock d) = true := by
  rw [Block4.forall_bits]; decide

/-- Flipping the bit that the position names is adding its unit word. -/
theorem correctedCopy_eq_xor_unit : ∀ w, correctedCopy w = xorWord w (unit (errorPosition w)) := by
  rw [Codeword7.forall_bits]; decide

/-- Packing a block on its port and reading it back gives the block, and the reverse. -/
@[simp] theorem Block4.ofPort_toPort : ∀ d : Block4, Block4.ofPort d.toPort = d := by
  rw [Block4.forall_bits]; decide

@[simp] theorem Codeword7.ofPort_toPort : ∀ c : Codeword7, Codeword7.ofPort c.toPort = c := by
  rw [Codeword7.forall_bits]; decide

theorem Block4.toPort_ofPort : ∀ v : BitVec 4, (Block4.ofPort v).toPort = v := by decide

theorem Codeword7.toPort_ofPort : ∀ v : BitVec 7, (Codeword7.ofPort v).toPort = v := by decide

end Sys2Proof.Machine
end

