-- ==== Sys2Proof/Laws/Groups.lean ====
section
/-! SUPPORT. The shape of proofs about streams: induction over whole groups of 4, 7 or 8 bits, what each loop does to a
group put in front, and slices past a group. -/

namespace Sys2Proof.Machine

/-! ### Induction over whole groups -/

/-- A fact about every sequence of whole blocks, from the empty sequence and from putting one block in front. -/
theorem blocks_induction {P : BitSeq → Prop} (nil : P [])
    (cons : ∀ (d : Block4) (s : BitSeq), s.length % 4 = 0 → P s → P (d.toList ++ s)) :
    ∀ s : BitSeq, s.length % 4 = 0 → P s
  | [], _ => nil
  | [_], h | [_, _], h | [_, _, _], h => absurd h (by simp)
  | a :: b :: c :: d :: s, h =>
    have hs : s.length % 4 = 0 := by simp only [List.length_cons] at h; omega
    cons ⟨a, b, c, d⟩ s hs (blocks_induction nil cons s hs)

/-- A fact about every sequence of whole 7-bit words. -/
theorem words_induction {P : BitSeq → Prop} (nil : P [])
    (cons : ∀ (c : Codeword7) (s : BitSeq), s.length % 7 = 0 → P s → P (c.toList ++ s)) :
    ∀ s : BitSeq, s.length % 7 = 0 → P s
  | [], _ => nil
  | [_], h | [_, _], h | [_, _, _], h | [_, _, _, _], h | [_, _, _, _, _], h | [_, _, _, _, _, _], h => absurd h (by simp)
  | a :: b :: c :: d :: e :: f :: g :: s, h =>
    have hs : s.length % 7 = 0 := by simp only [List.length_cons] at h; omega
    cons ⟨a, b, c, d, e, f, g⟩ s hs (words_induction nil cons s hs)

/-- The eight bits of an assembled byte are the bits it was assembled from. -/
theorem bitsOfByte_byteOfBits : ∀ b0 b1 b2 b3 b4 b5 b6 b7 : Bit,
    bitsOfByte (byteOfBits b0 b1 b2 b3 b4 b5 b6 b7) = [b0, b1, b2, b3, b4, b5, b6, b7] := by decide

/-- A fact about every sequence of whole bytes. -/
theorem bytes_induction {P : BitSeq → Prop} (nil : P [])
    (cons : ∀ (b : Byte) (s : BitSeq), s.length % 8 = 0 → P s → P (bitsOfByte b ++ s)) :
    ∀ s : BitSeq, s.length % 8 = 0 → P s
  | [], _ => nil
  | [_], h | [_, _], h | [_, _, _], h | [_, _, _, _], h | [_, _, _, _, _], h | [_, _, _, _, _, _], h
  | [_, _, _, _, _, _, _], h => absurd h (by simp)
  | a :: b :: c :: d :: e :: f :: g :: k :: s, h =>
    have hs : s.length % 8 = 0 := by simp only [List.length_cons] at h; omega
    have hb := cons (byteOfBits a b c d e f g k) s hs (bytes_induction nil cons s hs)
    by rwa [bitsOfByte_byteOfBits] at hb

/-! ### One group in front -/

theorem encodeBlocks_block_append (d : Block4) (s : BitSeq) :
    encodeBlocks (d.toList ++ s) = (encodeBlock d).toList ++ encodeBlocks s := rfl

theorem decodeWords_word_append (c : Codeword7) (s : BitSeq) :
    decodeWords (c.toList ++ s) = (decodeBlock c).1.toList ++ decodeWords s := rfl

theorem bytesToBits_cons (b : Byte) (bytes : ByteSeq) :
    bytesToBits (b :: bytes) = bitsOfByte b ++ bytesToBits bytes := rfl

theorem xorBits_word_append (c e : Codeword7) (s t : BitSeq) :
    xorBits (c.toList ++ s) (e.toList ++ t) = (xorWord c e).toList ++ xorBits s t := rfl

/-! ### Slices -/

/-- A slice that begins past a group is a slice of what stands behind it. -/
theorem slice_append_right {α : Type} (a s : List α) (i j : Nat) :
    slice (a ++ s) (a.length + i) (a.length + j) = slice s i j := by
  simp [slice, List.take_append, List.drop_append]

/-- The first slice of a group's length is the group. -/
theorem slice_append_left {α : Type} (a s : List α) : slice (a ++ s) 0 a.length = a := by
  simp [slice]

end Sys2Proof.Machine
end

