-- ==== Sys2Proof/Laws/PerInstr.lean ====
section
/-! SUPPORT. The statements made per instruction: `RowMatch`, an instruction's word belongs to its own row of the
operation map and to no other (30_encoding.md R37). -/

namespace Sys2Proof.Laws.RowMatch

/-- The row of spec/opcode_table.json that stands for the instruction. -/
def row (i : Instr) : OpRow :=
  match i with
  | .enc _ => encRow
  | .dec _ => decRow

/-- The word of `i` belongs to the row of `i`, and to no other row. -/
def Statement (i : Instr) : Prop := ∀ r ∈ opcodeTable, (r.owns (encodeWord i) = true ↔ r = row i)

theorem enc (d : Block4) : Statement (.enc d) := by
  obtain ⟨a, b, c, e⟩ := d
  revert a b c e
  unfold Statement
  decide

theorem dec (c : Codeword7) : Statement (.dec c) := by
  obtain ⟨c0, c1, c2, c3, c4, c5, c6⟩ := c
  revert c0 c1 c2 c3 c4 c5 c6
  unfold Statement
  decide

end Sys2Proof.Laws.RowMatch
end

