-- ==== Sys2Proof/Laws/Step.lean ====
section
/-! SUPPORT. What a step can do, said once. -/

namespace Sys2Proof.Machine

/-- An instruction takes one result: its operation's value. -/
theorem exec_eq_answer (i : Instr) (s : State) : exec i s = .next (s.answer (.block i) (Op.block i).value) := by
  cases i <;> rfl

/-- A call takes one result: its operation's value. -/
theorem execCall_eq_answer (p : Call) (s : State) : execCall p s = .next (s.answer (.call p) (Op.call p).value) := by
  cases p <;> rfl

/-- A step on a request word is the decoded instruction, or the refusal. -/
theorem step_word {s : State} {w : RequestWord} {rest : List Request} (h : s.requests = .word w :: rest) :
    step s = match decodeWord w with
      | .ok i => exec i { s with requests := rest }
      | .error e => .refused (refusalOf e) := by
  have hf : s.fetch = some (.word w, { s with requests := rest }) := State.fetch_eq_some.2 ⟨h, rfl⟩
  cases hw : decodeWord w <;> simp only [step, hf, hw]

/-- A step on a call carries it out. -/
theorem step_call {s : State} {p : Call} {rest : List Request} (h : s.requests = .call p :: rest) :
    step s = .next ({ s with requests := rest }.answer (.call p) (Op.call p).value) := by
  have hf : s.fetch = some (.call p, { s with requests := rest }) := State.fetch_eq_some.2 ⟨h, rfl⟩
  simp only [step, hf]
  exact execCall_eq_answer p _

/-- A step that answers a next state took the first request off the list and appended its operation's value; nothing
else changed. -/
theorem step_eq_next {s t : State} (h : step s = .next t) :
    ∃ r op, s.requests = r :: t.requests ∧ r.op = some op ∧ t.answers = s.answers ++ [op.answered] := by
  unfold step at h
  split at h
  · cases h
  · next w u hf =>
    rw [State.fetch_eq_some] at hf
    split at h
    · next i hi =>
      rw [exec_eq_answer] at h
      cases h
      exact ⟨.word w, .block i, by simpa using hf.1, by simp [Request.op, hi], by simp [hf.2, Op.answered]⟩
    · cases h
  · next p u hf =>
    rw [State.fetch_eq_some] at hf
    rw [execCall_eq_answer] at h
    cases h
    exact ⟨.call p, .call p, by simpa using hf.1, rfl, by simp [hf.2, Op.answered]⟩

end Sys2Proof.Machine
end

