-- ==== Sys2Proof/Tests/Slice0.lean ====
section
/-! SUPPORT. The model's own tests. Expected values come from spec/: the source's examples (95_test_vectors.md section 1),
the derived tables (sections 2 to 8), and words written out from 30_encoding.md R37. After them stand the witnesses: one
theorem for each statement that has hypotheses, showing values that meet them. -/

open Sys2Proof Sys2Proof.Machine

namespace Sys2Proof.Tests

/-- A state with these requests and no result yet. -/
def withRequests (qs : List Request) : State := { blocks := (), requests := qs, answers := [] }

/-! ### Well-formedness: an ill-formed term for each check -/

theorem test_wellFormed_refuses_first_reserved_word : RequestWord.wellFormed 0x10#8 = false := by decide
theorem test_wellFormed_refuses_last_reserved_word : RequestWord.wellFormed 0x7F#8 = false := by decide
theorem test_wellFormed_admits_the_neighbours :
    RequestWord.wellFormed 0x0F#8 = true ∧ RequestWord.wellFormed 0x80#8 = true := by decide
theorem test_wellFormedProgram_refuses_one_bad_word : wellFormedProgram [0x0B#8, 0x10#8, 0xA3#8] = false := by decide
theorem test_request_refuses_bad_word : (Request.word 0x3C#8).wellFormed = false := by decide

/-! ### Decoding, words written bit by bit from R37: op, 000, d0 d1 d2 d3; op, c[0] to c[6] -/

theorem test_decode_enc : decodeWord 0b0_000_0001#8 = .ok (.enc ⟨false, false, false, true⟩) := by decide
theorem test_decode_dec : decodeWord 0b1_1010011#8 = .ok (.dec ⟨true, false, true, false, false, true, true⟩) := by decide
theorem test_decode_first_reserved : decodeWord 0b0_001_0000#8 = .error (.noOperation 0x10#8) := by decide
theorem test_decode_last_reserved : decodeWord 0b0_111_1111#8 = .error (.noOperation 0x7F#8) := by decide
theorem test_decode_leaves_the_rest : decode [0x04#8, 0x01#8] = .ok (.enc ⟨false, true, false, false⟩, [0x01#8]) := by
  decide
theorem test_encodeWord_enc : encodeWord (.enc ⟨true, false, true, true⟩) = 0x0B#8 := by decide
theorem test_encodeWord_dec : encodeWord (.dec ⟨false, true, false, false, false, true, true⟩) = 0xA3#8 := by decide
theorem test_rows_do_not_overlap : ∀ w : RequestWord, ¬ (encRow.owns w = true ∧ decRow.owns w = true) := by decide
theorem test_decodeTableWord_rows : decodeTableWord 8 0x00 = some (.enc ⟨false, false, false, false⟩) ∧
    decodeTableWord 8 0x80 = some (.dec ⟨false, false, false, false, false, false, false⟩) ∧
    decodeTableWord 8 0x10 = none := by decide

/-! ### ENC and DEC: example E1 of the source, and a word whose flip is at the last index (section 3.3) -/

theorem test_enc_source_example : exec (.enc ⟨true, false, true, true⟩) State.reset = .next
    { State.reset with answers := [⟨.block (.enc ⟨true, false, true, true⟩),
      .codeword ⟨false, true, true, false, false, true, true⟩⟩] } := by rfl
theorem test_enc_on_ports : encoderBlock 0x1#4 = 0x69#7 ∧ encoderBlock 0x8#4 = 0x70#7 := by decide
theorem test_dec_source_example : exec (.dec ⟨false, true, false, false, false, true, true⟩) State.reset = .next
    { State.reset with answers := [⟨.block (.dec ⟨false, true, false, false, false, true, true⟩),
      .corrected ⟨true, false, true, true⟩ 3#3⟩] } := by rfl
theorem test_dec_on_ports : decoderBlock 0x7E#7 = ⟨0xF#4, 7#3⟩ ∧ decoderBlock 0x68#7 = ⟨0x1#4, 7#3⟩ := by decide

/-- Section 4.1, positions 1 and 2 of 0x33; section 4.2, positions 1, 2, 3 of 0x00. -/
theorem test_dec_silent_miscorrection : decoderBlock 0x53#7 = ⟨0x3#4, 3#3⟩ ∧ decoderBlock 0x70#7 = ⟨0x8#4, 0#3⟩ := by
  decide

/-! ### Steps: programs P1 and P4, a refused word, the end of the list -/

theorem test_step_takes_one_request : step (withRequests [.word 0x04#8, .word 0x01#8]) = .next
    { blocks := (), requests := [.word 0x01#8], answers := [⟨.block (.enc ⟨false, true, false, false⟩),
      .codeword ⟨true, false, false, true, true, false, false⟩⟩] } := by rfl
theorem test_step_miscorrects_silently : step (State.reset.withFetchWord 8 0xD3) = .next
    { blocks := (), requests := [], answers := [⟨.block (.dec ⟨true, false, true, false, false, true, true⟩),
      .corrected ⟨false, false, true, true⟩ 3#3⟩] } := by rfl
theorem test_step_refuses_reserved_word : step (withRequests [.word 0x42#8]) = .refused (.noOperation 0x42#8) := by rfl
theorem test_step_after_last_request : step State.reset = .refused .runEnded := by rfl
/-- P6: a failing call is a next state with the failure as its result. -/
theorem test_step_goes_on_after_failure : step (withRequests [.call (.encodeStream [true, false, true, true, false, true]),
    .word 0x0B#8]) = .next { blocks := (), requests := [.word 0x0B#8], answers :=
      [⟨.call (.encodeStream [true, false, true, true, false, true]), .bitsResult (.fail .malformedLength)⟩] } := by rfl

/-! ### Pseudo-instructions: sections 5, 6 and 7 -/

theorem test_bytesToBits : bytesToBits [0xA5#8] = [true, false, true, false, false, true, false, true] := by decide
theorem test_bytesToBits_order : bytesToBits [0x48#8, 0x69#8] = [false, true, false, false, true, false, false, false,
    false, true, true, false, true, false, false, true] := by decide
theorem test_bitsToBytes : bitsToBytes [true, false, true, false, false, true, false, true, false, false, false, false,
    true, true, true, true] = .ok [0xA5#8, 0x0F#8] := by decide
theorem test_bitsToBytes_length_9 : bitsToBytes [false, true, false, false, false, false, false, true, true] =
    .fail .malformedLength := by decide
theorem test_encodeStream : encodeStream [true, false, true, true, false, true, false, false, true, true, true, false] =
    .ok [false, true, true, false, false, true, true, true, false, false, true, true, false, false,
      false, false, true, false, true, true, false] := by decide
theorem test_encodeStream_length_5 : encodeStream [true, false, true, true, false] = .fail .malformedLength := by decide
theorem test_decodeStream : decodeStream [false, true, false, false, false, true, true] =
    .ok [true, false, true, true] := by decide
theorem test_decodeStream_length_8 : decodeStream [false, true, true, false, false, true, true, false] =
    .fail .malformedLength := by decide
theorem test_encode : facadeEncode [0x48#8] =
    [true, false, false, true, true, false, false, true, true, true, false, false, false, false] := by decide
/-- encode([0x41]) with the indices 2 and 13 flipped. -/
theorem test_decode_corrects : facadeDecode [true, false, true, true, true, false, false, true, true, false, true, false,
    false, false] = .ok [0x41#8] := by decide
/-- 21 bits, three codewords: the second check fails. -/
theorem test_decode_second_check : facadeDecode [true, false, false, true, true, false, false, true, true, false, true,
    false, false, true, false, false, false, false, false, false, false] = .fail .malformedLength := by decide
/-- P1: the requests of encode([0x41]) are the words 0x04 and 0x01. -/
theorem test_blockRequests : (blockRequests (.encode [0x41#8])).map encodeWord = [0x04#8, 0x01#8] := by decide
/-- P6: decode(1001100) issues the word 0xCC, decode(100110) none. -/
theorem test_blockRequests_decode :
    (blockRequests (.decode [true, false, false, true, true, false, false])).map encodeWord = [0xCC#8] ∧
    blockRequests (.decode [true, false, false, true, true, false]) = [] := by decide
theorem test_text : renderText [false, true, true] = ['0', '1', '1'] ∧ parseText ['1', '0'] = some [true, false] ∧
    parseText ['1', ' '] = none := by decide
theorem test_parity_width : Config.parityBits = Config.codeBits - Config.dataBits := by decide
/-- The premise of a bounded realisation (D11). -/
theorem test_within : (Request.call (.encode [0x41#8])).within 8 = true ∧
    (Request.call (.encode [0x41#8])).within 7 = false := by decide

/-! ### Witnesses of the hypotheses -/

/-- One word for each position a clause of the statement names. -/
theorem wit_DecCorrectsAtMostOneBit :
    errorPosition (unit 1#3) = 1#3 ∧ errorPosition (unit 2#3) = 2#3 ∧ errorPosition (unit 4#3) = 4#3 ∧
    errorPosition (unit 3#3) = 3#3 ∧ errorPosition (unit 5#3) = 5#3 ∧ errorPosition (unit 6#3) = 6#3 ∧
    errorPosition (unit 7#3) = 7#3 := by decide
theorem wit_CodewordsDifferInAtLeastThreeBits :
    encodeBlock ⟨false, false, false, false⟩ ≠ encodeBlock ⟨true, false, false, false⟩ := by decide
theorem wit_CorrectionFlipsTheNamedBitOnly : errorPosition (unit 0#3) = 0#3 ∧ errorPosition (unit 7#3) ≠ 0#3 ∧
    0 < 7 ∧ 6 < 7 := by decide
theorem wit_NoErrorIdentityAndSingleBitCorrection : (0 < 7 ∧ 6 < 7) ∧
    decodeBlock (flipBit (encodeBlock ⟨true, false, true, true⟩) 6) = (⟨true, false, true, true⟩, 7#3) := by decide
theorem wit_SeveralFlipsAreSilentlyMiscorrected : (1#3 ≠ 0#3 ∧ 7#3 ≠ 0#3 ∧ 1#3 ≠ 7#3) ∧
    weight (Codeword7.ofPort 0x70#7) = 3 ∧ weight (Codeword7.ofPort 0x68#7) = 3 := by decide
/-- 0x33 is at distance 0 of its own codeword and at least 3 of another. -/
theorem wit_DecReturnsTheNearestCodeword :
    weight (xorWord (Codeword7.ofPort 0x33#7) (encodeBlock ⟨true, false, true, true⟩)) ≤ 1 ∧
    (⟨true, true, true, true⟩ : Block4) ≠ ⟨true, false, true, true⟩ := by decide
theorem wit_SyndromeIsLinearWithCheckMatrix : (1#3 ≠ 0#3 ∧ 7#3 ≠ 0#3) ∧ (1 ≤ 1 ∧ 1 ≤ 7) ∧ (1 ≤ 7 ∧ 7 ≤ 7) := by decide
theorem wit_SequencesOnPortsMostSignificantFirst : 0 < 7 ∧ 6 < 7 := by decide
theorem wit_OperandAssemblyAndCheckCoverage : 0 < 7 ∧ 6 < 7 := by decide
theorem wit_NoOperandIsIllegal : isValid (Codeword7.ofPort 0x23#7) = false ∧ isValid (Codeword7.ofPort 0x33#7) = true ∧
    weight (xorWord (Codeword7.ofPort 0x23#7) (Codeword7.ofPort 0x33#7)) = 1 := by decide
/-- The first and the last refused word, and their neighbours that are not. -/
theorem wit_UnnamedRequestWordsAreRefused : (withRequests [.word 0x10#8]).requests = .word 0x10#8 :: [] ∧
    decodeWord 0x10#8 = .error (.noOperation 0x10#8) ∧ decodeWord 0x7F#8 = .error (.noOperation 0x7F#8) ∧
    decodeWord 0x0F#8 = .ok (.enc ⟨true, true, true, true⟩) ∧
    decodeWord 0x80#8 = .ok (.dec ⟨false, false, false, false, false, false, false⟩) := by decide
theorem wit_ProgramsDecodeToWhatTheyEncode : decodeProgram [0x04#8, 0xDC#8] =
    .ok [.enc ⟨false, true, false, false⟩, .dec ⟨true, false, true, true, true, false, false⟩] := by decide
theorem wit_UnitsStandInInputOrder :
    encodeStream [true, false, true, true] = .ok [false, true, true, false, false, true, true] ∧
    encodeStream [] = .ok [] ∧
    decodeStream [false, true, true, false, false, true, true] = .ok [true, false, true, true] ∧
    bitsToBytes [false, false, false, false, false, false, false, true] = .ok [0x01#8] := by decide
theorem wit_BytesToBitsGivesEveryBit : ([0x41#8, 0x80#8] : ByteSeq)[1]? = some 0x80#8 ∧ 0 < 8 ∧ 7 < 8 := by decide
theorem wit_BitsToBytesGivesEveryByte : ([true, false, true] : BitSeq).length % 8 ≠ 0 ∧
    (bytesToBits [0x41#8]).length % 8 = 0 ∧ (bytesOf (bytesToBits [0x41#8]))[0]? = some 0x41#8 := by decide
theorem wit_PackingIsLossless : (bytesToBits [0xA5#8]).length % 8 = 0 ∧
    bitsToBytes (bytesToBits [0xA5#8]) = .ok [0xA5#8] := by decide
theorem wit_EncodeStreamIsBlockwiseEnc : ([true] : BitSeq).length % 4 ≠ 0 ∧
    ([true, false, true, true] : BitSeq).length % 4 = 0 ∧ 0 < ([true, false, true, true] : BitSeq).length / 4 := by decide
theorem wit_DecodeStreamIsWordwiseDec : ([true] : BitSeq).length % 7 ≠ 0 ∧
    ([true, false, true, true, false, true, true] : BitSeq).length % 7 = 0 ∧
    0 < ([true, false, true, true, false, true, true] : BitSeq).length / 7 := by decide
theorem wit_StreamLengthLaws : ([true, false, true, true] : BitSeq).length % 4 = 0 ∧
    ([true, false, true, true, false, true, true] : BitSeq).length % 7 = 0 := by decide
/-- One flip in the one group (then the stream is corrected), and two flips in it (then it is not). -/
theorem wit_StreamCorrectsOneFlipPerCodeword : ([true, false, true, true] : BitSeq).length % 4 = 0 ∧
    ([false, false, true, false, false, false, false] : BitSeq).length = ([true, false, true, true] : BitSeq).length * 7 / 4 ∧
    (∀ k, k < ([true, false, true, true] : BitSeq).length / 4 →
      ones (slice [false, false, true, false, false, false, false] (7 * k) (7 * k + 7)) ≤ 1) ∧
    ¬ ones (slice [true, true, false, false, false, false, false] (7 * 0) (7 * 0 + 7)) ≤ 1 := by decide
theorem wit_EncodeFacadeNeverFails : ([0x41#8] : ByteSeq)[0]? = some 0x41#8 := by decide
/-- Lengths 6, 7 and 14: the first check fails, the second fails, neither fails. -/
theorem wit_DecodeFacadeChecksTwice : (List.replicate 6 true).length % 7 ≠ 0 ∧ (List.replicate 7 true).length % 7 = 0 ∧
    (decodeWords (List.replicate 7 true)).length % 8 ≠ 0 ∧ (List.replicate 14 true).length % 7 = 0 ∧
    (decodeWords (List.replicate 14 true)).length % 8 = 0 := by decide
theorem wit_DecodeSucceedsOnMultiplesOfFourteen : (List.replicate 21 true).length = 7 * 3 := by decide
theorem wit_RoundTripUnderOneFlipPerCodeword :
    (List.replicate 6 false ++ true :: true :: List.replicate 6 false).length = 14 * ([0x41#8] : ByteSeq).length ∧
    ∀ k, k < 2 * ([0x41#8] : ByteSeq).length →
      ones (slice (List.replicate 6 false ++ true :: true :: List.replicate 6 false) (7 * k) (7 * k + 7)) ≤ 1 := by decide
theorem wit_FailureDependsOnLengthAlone : ([true, false] : BitSeq).length = ([false, false] : BitSeq).length := by decide
theorem wit_LengthCheckComesBeforeEveryBlock : (List.replicate 5 true).length % 4 ≠ 0 ∧
    (List.replicate 6 true).length % 7 ≠ 0 ∧ (List.replicate 7 true).length % 7 = 0 ∧
    (List.replicate 7 true).length * 4 / 7 % 8 ≠ 0 := by decide
theorem wit_OneBlockStepPerBlock : (List.replicate 4 true).length % 4 = 0 ∧ (List.replicate 7 true).length % 7 = 0 := by
  decide
theorem wit_StepRunsTheDecodedInstruction : (withRequests [.word 0x0B#8]).requests = .word 0x0B#8 :: [] ∧
    decode [0x0B#8] = .ok (.enc ⟨true, false, true, true⟩, []) := by decide
theorem wit_StepRunsTheNextCall : (withRequests [.call (.decode [])]).requests = .call (.decode []) :: [] ∧
    State.reset.requests = [] := by decide
theorem wit_ResultDependsOnTheRequestAlone : (withRequests [.word 0x0B#8]).requests = .word 0x0B#8 :: [] ∧
    (withRequests [.word 0x0B#8, .word 0xA3#8]).requests = .word 0x0B#8 :: [.word 0xA3#8] ∧
    (Request.word 0x0B#8).wellFormed = true := by decide
theorem wit_RepeatingARequestRepeatsItsResult :
    (withRequests [.call (.decode [true]), .call (.decode [true])]).requests =
      .call (.decode [true]) :: .call (.decode [true]) :: [] ∧ (Request.call (.decode [true])).wellFormed = true := by decide
theorem wit_RunnableMachinesMakeProgress :
    (withRequests [.word 0x0B#8, .call (.decode [])]).Runnable ∧
    (withRequests [.word 0x0B#8, .call (.decode [])]).requests ≠ [] := by
  unfold State.Runnable; decide
theorem wit_RequestsAreAnsweredFirstToLast :
    (withRequests [.word 0x0B#8, .word 0xFF#8, .word 0x10#8]).requests = [.word 0x0B#8, .word 0xFF#8] ++ [.word 0x10#8] ∧
    ∀ r ∈ [Request.word 0x0B#8, Request.word 0xFF#8], r.wellFormed = true := by decide
theorem wit_OrderOfRequestsDoesNotMatter : (withRequests [.word 0x0B#8, .word 0xFF#8]).Runnable ∧
    List.Perm (withRequests [.word 0x0B#8, .word 0xFF#8]).requests (withRequests [.word 0xFF#8, .word 0x0B#8]).requests :=
  ⟨by unfold State.Runnable; decide, List.Perm.swap _ _ _⟩
theorem wit_CallsEqualTheirBlockExpansion : (withRequests [.word 0x04#8, .word 0x01#8, .word 0xFF#8]).requests =
    (blockRequests (.encode [0x41#8])).map (fun i => Request.word (encodeWord i)) ++ [.word 0xFF#8] := by decide
/-- A state with one sound result that takes a next step, and one whose result is not sound. -/
theorem wit_EveryStepKeepsResultsSound :
    ({ blocks := (), requests := [.word 0x0B#8], answers := [⟨.block (.enc ⟨true, false, true, true⟩),
      .codeword ⟨false, true, true, false, false, true, true⟩⟩] } : State).Sound ∧
    (∃ t, step { blocks := (), requests := [.word 0x0B#8], answers := [⟨.block (.enc ⟨true, false, true, true⟩),
      .codeword ⟨false, true, true, false, false, true, true⟩⟩] } = .next t) ∧
    ¬ (⟨.block (.enc ⟨true, false, true, true⟩), .codeword ⟨true, true, true, false, false, true, true⟩⟩ : Answer).Sound := by
  refine ⟨?_, ⟨_, rfl⟩, ?_⟩
  · intro a ha
    obtain rfl : a = _ := List.mem_singleton.1 ha
    exact ⟨rfl, rfl⟩
  · rintro ⟨h, -⟩
    cases h
theorem wit_NoStepFaultsAndRefusalsAreNamed : step (withRequests [.word 0x10#8]) = .refused (.noOperation 0x10#8) := by rfl
theorem wit_TextFormIsOneCharacterPerBit : parseText ['0', '1'] = some [false, true] := by decide

end Sys2Proof.Tests
end

section
/-! The operation map of request words (30_encoding.md R37, R40): which words belong to which row, and that decoding
and encoding of request words are inverse to each other. -/

namespace Sys2Proof

open Machine

/-! ### The rows as ranges of word values -/

/-- `w & 0xF0 = 0x00` says that the upper nibble is zero. -/
theorem encRow_owns_iff : ∀ w : RequestWord, encRow.owns w = true ↔ w.toNat < 0x10 := by decide

/-- `w & 0x80 = 0x80` says that the operation bit is set. -/
theorem decRow_owns_iff : ∀ w : RequestWord, decRow.owns w = true ↔ 0x80 ≤ w.toNat := by decide

/-- R40: the refused words are 0x10 to 0x7F. -/
theorem RequestWord.not_wellFormed_iff (w : RequestWord) :
    ¬ RequestWord.wellFormed w = true ↔ 0x10 ≤ w.toNat ∧ w.toNat ≤ 0x7F := by
  simp [RequestWord.wellFormed]

/-- The words that a row owns are all but those of R40. -/
theorem RequestWord.wellFormed_iff (w : RequestWord) :
    RequestWord.wellFormed w = true ↔ encRow.owns w = true ∨ decRow.owns w = true := by
  rw [← not_iff_not, RequestWord.not_wellFormed_iff, encRow_owns_iff, decRow_owns_iff]
  omega

theorem encRow_owns_encodeWord (d : Block4) : encRow.owns (encodeWord (.enc d)) = true :=
  (Laws.RowMatch.enc d encRow (List.mem_cons_self ..)).2 rfl

theorem decRow_owns_encodeWord (c : Codeword7) : decRow.owns (encodeWord (.dec c)) = true :=
  (Laws.RowMatch.dec c decRow (List.mem_cons_of_mem _ (List.mem_singleton_self _))).2 rfl

/-! ### One equation per branch of the decoder -/

theorem decodeWord_of_encRow_owns {w : RequestWord} (h : encRow.owns w = true) :
    decodeWord w = .ok (.enc (Block4.ofPort (w.setWidth 4))) := by
  rw [BitVec.setWidth_eq_extractLsb' (by decide)]
  simp only [decodeWord, h, if_true]

theorem decodeWord_of_decRow_owns {w : RequestWord} (h : decRow.owns w = true) :
    decodeWord w = .ok (.dec (Codeword7.ofPort (w.setWidth 7))) := by
  have he : ¬ encRow.owns w = true := by
    rw [decRow_owns_iff] at h
    rw [encRow_owns_iff]
    omega
  rw [BitVec.setWidth_eq_extractLsb' (by decide)]
  simp only [decodeWord, he, h, if_true, Bool.false_eq_true, if_false]

theorem decodeWord_of_not_wellFormed {w : RequestWord} (h : ¬ RequestWord.wellFormed w = true) :
    decodeWord w = .error (.noOperation w) := by
  rw [RequestWord.wellFormed_iff, not_or] at h
  simp only [decodeWord, h.1, h.2, Bool.false_eq_true, if_false]

/-! ### Decoding inverts encoding -/

/-- An instruction's word belongs to its own row, whose operand field holds the port value. -/
@[simp] theorem decodeWord_encodeWord (i : Instr) : decodeWord (encodeWord i) = .ok i := by
  cases i with
  | enc d =>
    have hfield : (encodeWord (.enc d)).setWidth 4 = d.toPort := by
      simp only [encodeWord]
      bv_omega
    rw [decodeWord_of_encRow_owns (encRow_owns_encodeWord d), hfield, Block4.ofPort_toPort]
  | dec c =>
    have hfield : (encodeWord (.dec c)).setWidth 7 = c.toPort := by
      simp only [encodeWord]
      bv_omega
    rw [decodeWord_of_decRow_owns (decRow_owns_encodeWord c), hfield, Codeword7.ofPort_toPort]

/-- A word that decodes is the word of what it decodes to: outside the operand field a row leaves no bit open. -/
theorem encodeWord_of_decodeWord {w : RequestWord} {i : Instr} (h : decodeWord w = .ok i) : encodeWord i = w := by
  by_cases hwf : RequestWord.wellFormed w = true
  · rcases (RequestWord.wellFormed_iff w).1 hwf with henc | hdec
    · rw [decodeWord_of_encRow_owns henc] at h
      cases h
      rw [encRow_owns_iff] at henc
      simp only [encodeWord, Block4.toPort_ofPort]
      bv_omega
    · rw [decodeWord_of_decRow_owns hdec] at h
      cases h
      rw [decRow_owns_iff] at hdec
      simp only [encodeWord, Codeword7.toPort_ofPort]
      bv_omega
  · rw [decodeWord_of_not_wellFormed hwf] at h
    cases h

/-! ### Which words decode, and to which operation -/

theorem wellFormed_iff_decodes (w : RequestWord) :
    RequestWord.wellFormed w = true ↔ ∃ i, decodeWord w = .ok i := by
  constructor
  · rw [RequestWord.wellFormed_iff]
    rintro (h | h)
    · exact ⟨_, decodeWord_of_encRow_owns h⟩
    · exact ⟨_, decodeWord_of_decRow_owns h⟩
  · rintro ⟨i, hi⟩
    by_contra hwf
    simp [decodeWord_of_not_wellFormed hwf] at hi

theorem decodeWord_eq_error_iff {w : RequestWord} {e : DecodeError} :
    decodeWord w = .error e ↔ e = .noOperation w ∧ ¬ RequestWord.wellFormed w = true := by
  by_cases hwf : RequestWord.wellFormed w = true
  · obtain ⟨i, hi⟩ := (wellFormed_iff_decodes w).1 hwf
    simp [hi, hwf]
  · simp [decodeWord_of_not_wellFormed hwf, hwf, eq_comm]

theorem decodes_to_enc_iff (w : RequestWord) : (∃ d, decodeWord w = .ok (.enc d)) ↔ encRow.owns w = true := by
  constructor
  · rintro ⟨d, hd⟩
    exact encodeWord_of_decodeWord hd ▸ encRow_owns_encodeWord d
  · exact fun h => ⟨_, decodeWord_of_encRow_owns h⟩

theorem decodes_to_dec_iff (w : RequestWord) : (∃ c, decodeWord w = .ok (.dec c)) ↔ decRow.owns w = true := by
  constructor
  · rintro ⟨c, hc⟩
    exact encodeWord_of_decodeWord hc ▸ decRow_owns_encodeWord c
  · exact fun h => ⟨_, decodeWord_of_decRow_owns h⟩

/-- A step on a request word is refused by that word's name exactly when the decoder rejects the word. -/
theorem step_refused_noOperation_iff {s : State} {w : RequestWord} {rest : List Request}
    (h : s.requests = .word w :: rest) :
    step s = .refused (.noOperation w) ↔ decodeWord w = .error (.noOperation w) := by
  rw [step_word h]
  cases hw : decodeWord w with
  | ok i => simp [exec_eq_answer]
  | error e =>
    obtain ⟨rfl, -⟩ := decodeWord_eq_error_iff.1 hw
    simp [refusalOf]

theorem decodeWord_eq_noOperation_iff (w : RequestWord) :
    decodeWord w = .error (.noOperation w) ↔ 0x10 ≤ w.toNat ∧ w.toNat ≤ 0x7F := by
  rw [decodeWord_eq_error_iff, RequestWord.not_wellFormed_iff]
  simp

/-! ### The obligations on request words -/

/-- Settles O21: the decoder's branches are the two rows and the range of R40, and the one word of an instruction is
its encoding. -/
theorem unnamedRequestWordsAreRefused : Obligations.UnnamedRequestWordsAreRefused := by
  refine ⟨decodeWord_eq_noOperation_iff, wellFormed_iff_decodes, fun s w rest h => ?_, fun i => ?_⟩
  · rw [step_refused_noOperation_iff h, decodeWord_eq_noOperation_iff]
  · exact ⟨encodeWord i, decodeWord_encodeWord i, fun _ h => (encodeWord_of_decodeWord h).symm⟩

/-- Settles O19: the words are the encodings of the operand read from the port, so they decode back, and a row's mask
and match are its ownership test. -/
theorem requestWordsOfTheOperationMap : Obligations.RequestWordsOfTheOperationMap := by
  refine ⟨fun n => ?_, fun w => ?_, fun r => ⟨?_, ?_⟩⟩
  · have hword : encodeWord (.enc (Block4.ofPort n)) = n.setWidth 8 := by
      rw [encodeWord, Block4.toPort_ofPort]
    exact ⟨hword, hword ▸ decodeWord_encodeWord _, rfl⟩
  · have hword : encodeWord (.dec (Codeword7.ofPort w)) = 0x80#8 + w.setWidth 8 := by
      rw [encodeWord, Codeword7.toPort_ofPort]
    exact ⟨hword, hword ▸ decodeWord_encodeWord _, rfl⟩
  · exact (decodes_to_enc_iff r).trans beq_iff_eq
  · exact (decodes_to_dec_iff r).trans beq_iff_eq

end Sys2Proof
end

section
/-! Sequences as numbers and on their port bits (30_encoding.md R30 to R32, R36; 20_memory.md R22). -/

namespace Sys2Proof.Machine

/-! ### Numbers: each packing has room for its sum of weights -/

theorem Block4.toNat_toPort (d : Block4) :
    d.toPort.toNat = 8 * d.d0.toNat + 4 * d.d1.toNat + 2 * d.d2.toNat + d.d3.toNat := by
  have h0 := d.d0.toNat_le
  have h1 := d.d1.toNat_le
  have h2 := d.d2.toNat_le
  have h3 := d.d3.toNat_le
  exact (BitVec.toNat_ofNat _ _).trans (Nat.mod_eq_of_lt (by omega))

theorem Codeword7.toNat_toPort (c : Codeword7) :
    c.toPort.toNat = 64 * c.c0.toNat + 32 * c.c1.toNat + 16 * c.c2.toNat + 8 * c.c3.toNat + 4 * c.c4.toNat
      + 2 * c.c5.toNat + c.c6.toNat := by
  have h0 := c.c0.toNat_le
  have h1 := c.c1.toNat_le
  have h2 := c.c2.toNat_le
  have h3 := c.c3.toNat_le
  have h4 := c.c4.toNat_le
  have h5 := c.c5.toNat_le
  have h6 := c.c6.toNat_le
  exact (BitVec.toNat_ofNat _ _).trans (Nat.mod_eq_of_lt (by omega))

theorem toNat_byteOfBits (b0 b1 b2 b3 b4 b5 b6 b7 : Bit) :
    (byteOfBits b0 b1 b2 b3 b4 b5 b6 b7).toNat = 128 * b0.toNat + 64 * b1.toNat + 32 * b2.toNat + 16 * b3.toNat
      + 8 * b4.toNat + 4 * b5.toNat + 2 * b6.toNat + b7.toNat := by
  have h0 := b0.toNat_le
  have h1 := b1.toNat_le
  have h2 := b2.toNat_le
  have h3 := b3.toNat_le
  have h4 := b4.toNat_le
  have h5 := b5.toNat_le
  have h6 := b6.toNat_le
  have h7 := b7.toNat_le
  exact (BitVec.toNat_ofNat _ 8).trans (Nat.mod_eq_of_lt (by omega))

theorem toNat_errorPosition (c : Codeword7) :
    (errorPosition c).toNat = (check1 c).toNat + 2 * (check2 c).toNat + 4 * (check3 c).toNat := by
  have h1 := (check1 c).toNat_le
  have h2 := (check2 c).toNat_le
  have h3 := (check3 c).toNat_le
  exact (BitVec.toNat_ofNat _ 3).trans (Nat.mod_eq_of_lt (by omega))

/-! ### Port bits -/

/-- Reading the port back gives the word, so port bit `6-i` is its element `i`. -/
theorem Codeword7.getLsbD_toPort (c : Codeword7) {i : Nat} (hi : i < 7) :
    some (c.toPort.getLsbD (6 - i)) = c.toList[i]? := by
  have hback : (Codeword7.ofPort c.toPort).toList[i]? = c.toList[i]? := by rw [Codeword7.ofPort_toPort]
  rw [← hback]
  interval_cases i <;> rfl

/-- The port bits of a 3-bit sum of weights 1, 2, 4 are its summands. -/
theorem getLsbD_weightedSum : ∀ s1 s2 s3 : Bit,
    (BitVec.ofNat 3 (s1.toNat + 2 * s2.toNat + 4 * s3.toNat)).getLsbD 0 = s1 ∧
    (BitVec.ofNat 3 (s1.toNat + 2 * s2.toNat + 4 * s3.toNat)).getLsbD 1 = s2 ∧
    (BitVec.ofNat 3 (s1.toNat + 2 * s2.toNat + 4 * s3.toNat)).getLsbD 2 = s3 := by decide

/-! ### The checks of a codeword, and what one flip does to them -/

theorem isValid_iff (c : Codeword7) :
    isValid c = true ↔ check1 c = false ∧ check2 c = false ∧ check3 c = false := by
  simp [isValid, and_assoc]

/-- A flip at index `i` adds the bits of the position `i + 1` to the checks. -/
theorem checks_flipBit (c : Codeword7) {i : Nat} (hi : i < 7) :
    check1 (flipBit c i) = (check1 c ^^ (i + 1).testBit 0) ∧
    check2 (flipBit c i) = (check2 c ^^ (i + 1).testBit 1) ∧
    check3 (flipBit c i) = (check3 c ^^ (i + 1).testBit 2) := by
  interval_cases i <;> simp [flipBit, check1, check2, check3, Nat.testBit]

theorem toNat_errorPosition_flipBit_of_isValid {c : Codeword7} (hc : isValid c = true) {i : Nat} (hi : i < 7) :
    (errorPosition (flipBit c i)).toNat = i + 1 := by
  obtain ⟨h1, h2, h3⟩ := (isValid_iff c).1 hc
  obtain ⟨f1, f2, f3⟩ := checks_flipBit c hi
  rw [toNat_errorPosition, f1, f2, f3, h1, h2, h3]
  interval_cases i <;> rfl

theorem errorPosition_of_isValid {c : Codeword7} (hc : isValid c = true) : errorPosition c = 0#3 := by
  obtain ⟨h1, h2, h3⟩ := (isValid_iff c).1 hc
  simp [errorPosition, h1, h2, h3]

/-! ### Bytes -/

theorem bitsToBytes_byte (b0 b1 b2 b3 b4 b5 b6 b7 : Bit) :
    bitsToBytes [b0, b1, b2, b3, b4, b5, b6, b7] = .ok [byteOfBits b0 b1 b2 b3 b4 b5 b6 b7] :=
  requireWhole_of_dvd (dvd_refl 8) _

/-- A byte is assembled from its own bits. -/
theorem exists_byteOfBits_eq (b : Byte) : ∃ b0 b1 b2 b3 b4 b5 b6 b7, byteOfBits b0 b1 b2 b3 b4 b5 b6 b7 = b :=
  ⟨_, _, _, _, _, _, _, _, List.singleton_inj.1 (bytesOf_bitsOfByte_append b [])⟩

/-! ### The obligations on formats -/

/-- Settles O17: the sums of weights do not overflow, the port bits are those read back, and one flip of a codeword
leaves its position in the checks. -/
theorem sequencesOnPortsMostSignificantFirst : Obligations.SequencesOnPortsMostSignificantFirst := by
  refine ⟨fun d => ?_, fun c => ?_, fun c => ?_, fun d => ?_⟩
  · have hback := Block4.ofPort_toPort d
    exact ⟨Block4.toNat_toPort d, congrArg Block4.d0 hback, congrArg Block4.d1 hback, congrArg Block4.d2 hback,
      congrArg Block4.d3 hback, hback, rfl⟩
  · exact ⟨Codeword7.toNat_toPort c, fun _ hi => Codeword7.getLsbD_toPort c hi, Codeword7.ofPort_toPort c⟩
  · obtain ⟨h1, h2, h3⟩ := getLsbD_weightedSum (check1 c) (check2 c) (check3 c)
    exact ⟨h1, h2, h3, toNat_errorPosition c⟩
  · have hvalid := isValid_encodeBlock d
    exact ⟨rfl, errorPosition_of_isValid hvalid, fun _ hi => toNat_errorPosition_flipBit_of_isValid hvalid hi⟩

/-- Settles O24: assembling a byte and taking it apart are inverse, with the weights of R36. -/
theorem byteBitsMostSignificantFirst : Obligations.ByteBitsMostSignificantFirst := by
  refine ⟨fun b0 b1 b2 b3 b4 b5 b6 b7 => ?_, exists_byteOfBits_eq, ?_, ?_⟩
  · exact ⟨toNat_byteOfBits .., bitsOfByte_byteOfBits .., bitsToBytes_byte ..⟩
  · decide
  · decide

end Sys2Proof.Machine
end

section
/-! The encoder on sequences, on its ports and as an instruction (40_encoder.md R45). -/

namespace Sys2Proof.Machine

/-- R45 as an equation on sequences, every parity bit written out. -/
theorem encodeBlock_eq (d : Block4) : encodeBlock d =
    ⟨d.d0 ^^ d.d1 ^^ d.d3, d.d0 ^^ d.d2 ^^ d.d3, d.d0, d.d1 ^^ d.d2 ^^ d.d3, d.d1, d.d2, d.d3⟩ := rfl

/-- `code_out` carries the codeword of the block on `data_in`. -/
theorem ofPort_encoderBlock (v : BitVec 4) : Codeword7.ofPort (encoderBlock v) = encodeBlock (Block4.ofPort v) :=
  Codeword7.ofPort_toPort _

theorem toNat_encodeWord_enc (d : Block4) : (encodeWord (.enc d)).toNat = d.toPort.toNat :=
  BitVec.toNat_setWidth_of_le (by decide)

/-- An instruction answers a next state with the blocks' state as before. -/
theorem exec_keeps_blocks (i : Instr) (s : State) : ∃ t, exec i s = .next t ∧ t.blocks = s.blocks :=
  ⟨_, exec_eq_answer i s, rfl⟩

/-- Settles O1: the port equations are the sequence equation read off `code_out`, and the request word is the port value
in its own row. -/
theorem encComputesTheCodeword : Obligations.EncComputesTheCodeword := by
  refine ⟨encodeBlock_eq, fun v => ?_, fun d => ⟨?_, ?_⟩, fun d => exec_keeps_blocks (.enc d), rfl, rfl, rfl, rfl⟩
  · have hports := ofPort_encoderBlock v
    rw [encodeBlock_eq] at hports
    exact ⟨congrArg Codeword7.c0 hports, congrArg Codeword7.c1 hports, congrArg Codeword7.c2 hports,
      congrArg Codeword7.c3 hports, congrArg Codeword7.c4 hports, congrArg Codeword7.c5 hports,
      congrArg Codeword7.c6 hports⟩
  · rw [toNat_encodeWord_enc, Nat.zero_add]
  · exact beq_iff_eq.1 (encRow_owns_encodeWord d)

end Sys2Proof.Machine
end

section
/-! The decoder: the checks and the position (41_decoder.md R56, R57), the correction (R58, R59), the two guarantees on
codewords (R61), and `DEC` on sequences, on its ports and as an instruction (R55). -/

namespace Sys2Proof.Machine

/-! ### The checks and the position -/

/-- R56: each check adds one received parity bit to the parity of the received data bits. -/
theorem check1_interleave (p1 p2 p3 : Bit) (d : Block4) : check1 (interleave p1 p2 p3 d) = (p1 ^^ parity1 d) := by
  simp only [check1, interleave, parity1, Bool.xor_assoc]

theorem check2_interleave (p1 p2 p3 : Bit) (d : Block4) : check2 (interleave p1 p2 p3 d) = (p2 ^^ parity2 d) := by
  simp only [check2, interleave, parity2, Bool.xor_assoc]

theorem check3_interleave (p1 p2 p3 : Bit) (d : Block4) : check3 (interleave p1 p2 p3 d) = (p3 ^^ parity3 d) := by
  simp only [check3, interleave, parity3, Bool.xor_assoc]

theorem errorPosition_eq_zero_iff (c : Codeword7) :
    errorPosition c = 0#3 ↔ check1 c = false ∧ check2 c = false ∧ check3 c = false := by
  rw [← BitVec.toNat_inj, toNat_errorPosition]
  simp [and_assoc]

theorem toNat_errorPosition_le (c : Codeword7) : (errorPosition c).toNat ≤ 7 :=
  Nat.le_of_lt_succ (errorPosition c).isLt

theorem errorPosition_flipBit_of_isValid {c : Codeword7} (hc : isValid c = true) {i : Nat} (hi : i < 7) :
    errorPosition (flipBit c i) = BitVec.ofNat 3 (i + 1) := by
  rw [← toNat_errorPosition_flipBit_of_isValid hc hi, BitVec.ofNat_toNat, BitVec.setWidth_eq]

/-! ### One flipped bit -/

/-- On the sequence, a flip complements the element at its index. -/
theorem toList_flipBit (c : Codeword7) {i : Nat} (hi : i < 7) : (flipBit c i).toList = c.toList.modify i not := by
  interval_cases i <;> rfl

theorem getElem?_toList_flipBit (c : Codeword7) {i : Nat} (hi : i < 7) (j : Nat) :
    (flipBit c i).toList[j]? = (c.toList[j]?).map fun b => if j = i then !b else b := by
  rw [toList_flipBit c hi, List.getElem?_modify]
  simp only [eq_comm (a := i), Option.map_eq_map]

theorem flipBit_flipBit (c : Codeword7) {i : Nat} (hi : i < 7) : flipBit (flipBit c i) i = c := by
  interval_cases i <;> simp [flipBit]

theorem weight_xorWord_flipBit (c : Codeword7) {i : Nat} (hi : i < 7) : weight (xorWord c (flipBit c i)) = 1 := by
  interval_cases i <;> simp [flipBit, xorWord, weight, ones, Codeword7.toList]

/-! ### The corrected copy -/

theorem correctedCopy_of_errorPosition_eq_zero {c : Codeword7} (h : errorPosition c = 0#3) : correctedCopy c = c :=
  if_neg (not_not.2 h)

theorem correctedCopy_of_errorPosition_ne_zero {c : Codeword7} (h : errorPosition c ≠ 0#3) :
    correctedCopy c = flipBit c ((errorPosition c).toNat - 1) := if_pos h

/-- The correction with the position read as a number, as the pseudocode of R55 writes it. -/
theorem correctedCopy_eq_ite_toNat (c : Codeword7) : correctedCopy c =
    if (errorPosition c).toNat ≠ 0 then flipBit c ((errorPosition c).toNat - 1) else c :=
  if_congr (not_congr BitVec.toNat_inj.symm) rfl rfl

theorem correctedCopy_of_isValid {c : Codeword7} (hc : isValid c = true) : correctedCopy c = c :=
  correctedCopy_of_errorPosition_eq_zero (errorPosition_of_isValid hc)

/-- The position that a flip leaves in the checks of a valid word sends the correction to the flipped bit. -/
theorem correctedCopy_flipBit_of_isValid {c : Codeword7} (hc : isValid c = true) {i : Nat} (hi : i < 7) :
    correctedCopy (flipBit c i) = c := by
  rw [correctedCopy_eq_ite_toNat, toNat_errorPosition_flipBit_of_isValid hc hi, if_pos (Nat.succ_ne_zero i),
    Nat.add_sub_cancel, flipBit_flipBit c hi]

/-! ### Decoding -/

theorem decodeBlock_eq (c : Codeword7) : decodeBlock c = (extract (correctedCopy c), errorPosition c) := rfl

theorem decodeBlock_encodeBlock (d : Block4) : decodeBlock (encodeBlock d) = (d, 0#3) := by
  rw [decodeBlock_eq, correctedCopy_of_isValid (isValid_encodeBlock d), extract_encodeBlock,
    errorPosition_of_isValid (isValid_encodeBlock d)]

theorem decodeBlock_flipBit_encodeBlock (d : Block4) {i : Nat} (hi : i < 7) :
    decodeBlock (flipBit (encodeBlock d) i) = (d, BitVec.ofNat 3 (i + 1)) := by
  rw [decodeBlock_eq, correctedCopy_flipBit_of_isValid (isValid_encodeBlock d) hi, extract_encodeBlock,
    errorPosition_flipBit_of_isValid (isValid_encodeBlock d) hi]

/-- A nonzero position `k` has the block taken from the word with the bit at index `k - 1` flipped. -/
theorem decodeBlock_fst_of_errorPosition {c : Codeword7} {k : ErrPos} (h : errorPosition c = k) (hk : k ≠ 0#3) :
    (decodeBlock c).1 = extract (flipBit c (k.toNat - 1)) := by
  subst h
  rw [decodeBlock_eq, correctedCopy_of_errorPosition_ne_zero hk]

/-- `data_out` and `err_pos` carry what the word on `code_in` decodes to. -/
theorem decoderBlock_toPort (c : Codeword7) :
    decoderBlock c.toPort = ⟨(decodeBlock c).1.toPort, (decodeBlock c).2⟩ := by
  rw [decoderBlock, Codeword7.ofPort_toPort]

/-- The operation bit stands above the seven bits of the operand. -/
theorem toNat_encodeWord_dec (c : Codeword7) : (encodeWord (.dec c)).toNat = 0x80 + c.toPort.toNat := by
  simp only [encodeWord]
  bv_omega

/-! ### The obligations on the decoder -/

/-- Settles O13: a codeword is valid, and one flip leaves in its checks the position that undoes it. -/
theorem noErrorIdentityAndSingleBitCorrection : Obligations.NoErrorIdentityAndSingleBitCorrection :=
  ⟨decodeBlock_encodeBlock, fun d _ hi => decodeBlock_flipBit_encodeBlock d hi⟩

/-- Settles O7: the copy and the position as numbers, then one clause for each position that names a data bit. -/
theorem decCorrectsAtMostOneBit : Obligations.DecCorrectsAtMostOneBit := by
  refine ⟨fun c => ?_, decoderBlock_toPort, fun c => ⟨toNat_encodeWord_dec c, ?_⟩, fun c => exec_keeps_blocks (.dec c),
    decodeBlock_encodeBlock, fun c => ⟨?_, ?_, ?_, ?_, ?_⟩, rfl, rfl, rfl, rfl⟩
  · intro s1 s2 s3 pos cc
    have hpos : (errorPosition c).toNat = pos := toNat_errorPosition c
    have hcc : correctedCopy c = cc := by rw [correctedCopy_eq_ite_toNat, hpos]
    have hle : pos ≤ 7 := hpos ▸ toNat_errorPosition_le c
    exact ⟨congrArg extract hcc, hpos, fun _ => Nat.sub_le_of_le_add hle⟩
  · exact beq_iff_eq.1 (decRow_owns_encodeWord c)
  · rintro (h | h | h)
    all_goals exact decodeBlock_fst_of_errorPosition h (by decide)
  all_goals exact fun h => decodeBlock_fst_of_errorPosition h (by decide)

/-- Settles O9: a check is the difference of the received and the recomputed parity bit, and `err_pos` carries the three
checks of the word on `code_in`. -/
theorem syndromeIsTheRecomputedParity : Obligations.SyndromeIsTheRecomputedParity := by
  refine ⟨fun c => ⟨rfl, rfl, rfl⟩, fun p1 p2 p3 d => ?_, fun v => ?_⟩
  · have h1 := check1_interleave p1 p2 p3 d
    have h2 := check2_interleave p1 p2 p3 d
    have h3 := check3_interleave p1 p2 p3 d
    exact ⟨h1, h2, h3, h1 ▸ bne_eq_false_iff_eq, h2 ▸ bne_eq_false_iff_eq, h3 ▸ bne_eq_false_iff_eq⟩
  · exact getLsbD_weightedSum (check1 (.ofPort v)) (check2 (.ofPort v)) (check3 (.ofPort v))

/-- Settles O10: the sum of the weights 1, 2 and 4 fits the three bits of the position. -/
theorem errorPositionIsTheWeightedSum : Obligations.ErrorPositionIsTheWeightedSum := fun c =>
  ⟨toNat_errorPosition c, toNat_errorPosition c ▸ toNat_errorPosition_le c, errorPosition_eq_zero_iff c, rfl⟩

/-- Settles O11: the copy is the word or its one flip, whose index the position keeps below 7. -/
theorem correctionFlipsTheNamedBitOnly : Obligations.CorrectionFlipsTheNamedBitOnly := by
  refine ⟨fun c => ⟨correctedCopy_of_errorPosition_eq_zero, fun h => ?_, correctedCopy_eq_xor_unit c⟩, ?_,
    fun c _ j hi _ => getElem?_toList_flipBit c hi j, fun c => rfl⟩
  · have hcopy := correctedCopy_of_errorPosition_ne_zero h
    have hindex : (errorPosition c).toNat - 1 < 7 := by
      have hle := toNat_errorPosition_le c
      omega
    exact ⟨hcopy, hcopy ▸ weight_xorWord_flipBit c hindex⟩
  · decide

end Sys2Proof.Machine
end

section
/-! The bit packer: bytes to bits (42_bitpacker.md R70) and bits to bytes (R71). Both follow from where one byte's eight
bits stand, since a whole sequence is the bits of its own bytes. -/

namespace Sys2Proof.Machine

/-- A call answers a next state with the blocks' state as before. -/
theorem execCall_keeps_blocks (p : Call) (s : State) : ∃ t, execCall p s = .next t ∧ t.blocks = s.blocks :=
  ⟨_, execCall_eq_answer p s, rfl⟩

/-! ### One byte -/

theorem toNat_getLsbD_byte (b : Byte) (k : Nat) : (b.getLsbD k).toNat = b.toNat / 2 ^ k % 2 :=
  Nat.toNat_testBit b.toNat k

theorem getElem?_bitsOfByte (b : Byte) {i : Nat} (hi : i < 8) : (bitsOfByte b)[i]? = some (b.getLsbD (7 - i)) := by
  interval_cases i <;> rfl

/-- R36: the eight bits of a byte, each with its weight. -/
theorem exists_bitsOfByte_eq (b : Byte) : ∃ g0 g1 g2 g3 g4 g5 g6 g7 : Bit,
    bitsOfByte b = [g0, g1, g2, g3, g4, g5, g6, g7] ∧
    b.toNat = 128 * g0.toNat + 64 * g1.toNat + 32 * g2.toNat + 16 * g3.toNat + 8 * g4.toNat + 4 * g5.toNat
      + 2 * g6.toNat + g7.toNat := by
  obtain ⟨g0, g1, g2, g3, g4, g5, g6, g7, rfl⟩ := exists_byteOfBits_eq b
  exact ⟨g0, g1, g2, g3, g4, g5, g6, g7, bitsOfByte_byteOfBits .., toNat_byteOfBits ..⟩

/-! ### A sequence of bytes -/

theorem getElem?_slice {α : Type} (s : List α) {i j k : Nat} (h : i + k < j) : (slice s i j)[k]? = s[i + k]? := by
  rw [slice, List.getElem?_drop, List.getElem?_take_of_lt h]

@[simp] theorem bytesToBits_length (bytes : ByteSeq) : (bytesToBits bytes).length = 8 * bytes.length := by
  induction bytes with
  | nil => rfl
  | cons b bytes ih =>
    rw [bytesToBits_cons, List.length_append, bitsOfByte_length, ih, List.length_cons]
    omega

/-- The bits of the byte at index `j` are the group of 8 that begins at `8*j`. -/
theorem slice_bytesToBits {bytes : ByteSeq} {j : Nat} {b : Byte} (h : bytes[j]? = some b) :
    slice (bytesToBits bytes) (8 * j) (8 * j + 8) = bitsOfByte b := by
  induction bytes generalizing j with
  | nil => cases h
  | cons a bytes ih =>
    rw [bytesToBits_cons]
    cases j with
    | zero =>
      cases h
      exact slice_append_left (bitsOfByte b) _
    | succ j =>
      have hshift : 8 * (j + 1) = (bitsOfByte a).length + 8 * j := by rw [bitsOfByte_length]; omega
      rw [hshift, Nat.add_assoc, slice_append_right]
      exact ih h

/-- R70: bit `i` of the byte at index `j` stands at `8*j + i`, most significant first. -/
theorem getElem?_bytesToBits {bytes : ByteSeq} {j : Nat} {b : Byte} (h : bytes[j]? = some b) {i : Nat} (hi : i < 8) :
    (bytesToBits bytes)[8 * j + i]? = some (b.getLsbD (7 - i)) := by
  rw [← getElem?_slice _ (Nat.add_lt_add_left hi (8 * j)), slice_bytesToBits h, getElem?_bitsOfByte b hi]

/-- A whole sequence is the bits of its own bytes. -/
theorem bytesToBits_bytesOf : ∀ bits : BitSeq, bits.length % 8 = 0 → bytesToBits (bytesOf bits) = bits := by
  apply bytes_induction
  case nil => rfl
  case cons =>
    intro b s _ ih
    rw [bytesOf_bitsOfByte_append, bytesToBits_cons, ih]

theorem bytesOf_length {bits : BitSeq} (h : bits.length % 8 = 0) : (bytesOf bits).length = bits.length / 8 := by
  have hlen := bytesToBits_length (bytesOf bits)
  rw [bytesToBits_bytesOf bits h] at hlen
  omega

theorem bitsToBytes_of_mod_eq_zero {bits : BitSeq} (h : bits.length % 8 = 0) :
    bitsToBytes bits = .ok (bytesOf bits) :=
  requireWhole_of_dvd (Nat.dvd_of_mod_eq_zero h) _

theorem bitsToBytes_of_mod_ne_zero {bits : BitSeq} (h : bits.length % 8 ≠ 0) :
    bitsToBytes bits = .fail .malformedLength :=
  requireWhole_of_not_dvd (mt Nat.mod_eq_zero_of_dvd h) _

/-! ### The obligations on the bit packer -/

/-- Settles O26: each byte's group of 8 stands at its own place, and an element of the group is a bit of the byte's
number. -/
theorem bytesToBitsGivesEveryBit : Obligations.BytesToBitsGivesEveryBit := by
  refine ⟨fun bytes => ⟨bytesToBits_length bytes, ?_, fun j b hb i hi => ?_⟩,
    fun bytes => execCall_keeps_blocks (.bytesToBits bytes), rfl, rfl, rfl, rfl, rfl, rfl⟩
  · rw [bytesToBits_length]
    omega
  · rw [getElem?_bytesToBits hb hi, Option.map_some, toNat_getLsbD_byte]

/-- Settles O27: behind the length check the sequence is the bits of its own bytes, so the group at `8*j` is the bits of
byte `j`. -/
theorem bitsToBytesGivesEveryByte : Obligations.BitsToBytesGivesEveryByte := by
  refine ⟨fun bits => bitsToBytes_of_mod_ne_zero, fun bits h => ?_,
    fun bits => execCall_keeps_blocks (.bitsToBytes bits), rfl, rfl, rfl⟩
  refine ⟨bytesOf bits, bitsToBytes_of_mod_eq_zero h, bytesOf_length h, fun j b hb => ?_⟩
  have hgroup := slice_bytesToBits hb
  rw [bytesToBits_bytesOf bits h] at hgroup
  rw [hgroup]
  exact exists_bitsOfByte_eq b

end Sys2Proof.Machine
end

section
/-! The streams (43_stream.md R75 to R77). A whole sequence is the concatenation of its own groups, and what a loop
appends for each group has one fixed length, so group `k` of the argument and group `k` of the result stand at the same
place `k`. -/

namespace Sys2Proof.Machine

/-! ### Concatenations of groups of one length -/

theorem length_flatMap_of_length_eq {α β : Type} {f : α → List β} {n : Nat} (hf : ∀ a, (f a).length = n)
    (l : List α) : (l.flatMap f).length = n * l.length := by
  simp [List.length_flatMap, hf, Nat.mul_comm]

/-- The group of the element at index `k` begins at `n*k`. -/
theorem slice_flatMap {α β : Type} {f : α → List β} {n : Nat} (hf : ∀ a, (f a).length = n) {l : List α} {k : Nat}
    (hk : k < l.length) : slice (l.flatMap f) (n * k) (n * k + n) = f l[k] := by
  induction l generalizing k with
  | nil => exact absurd hk (Nat.not_lt_zero k)
  | cons a l ih =>
    rw [List.flatMap_cons]
    cases k with
    | zero =>
      have hfirst := slice_append_left (f a) (l.flatMap f)
      rw [hf] at hfirst
      simpa using hfirst
    | succ k =>
      have hshift : n * (k + 1) = (f a).length + n * k := by rw [hf, Nat.mul_succ, Nat.add_comm]
      rw [hshift, Nat.add_assoc, slice_append_right, List.getElem_cons_succ]
      exact ih (Nat.lt_of_succ_lt_succ hk)

/-! ### The groups of a whole sequence -/

/-- A whole sequence is the concatenation of its own blocks. -/
theorem flatMap_toList_blocksOf : ∀ bits : BitSeq, bits.length % 4 = 0 →
    (blocksOf bits).flatMap Block4.toList = bits := by
  apply blocks_induction
  case nil => rfl
  case cons =>
    intro d s _ ih
    rw [blocksOf_toList_append, List.flatMap_cons, ih]

/-- A whole sequence is the concatenation of its own 7-bit words. -/
theorem flatMap_toList_wordsOf : ∀ bits : BitSeq, bits.length % 7 = 0 →
    (wordsOf bits).flatMap Codeword7.toList = bits := by
  apply words_induction
  case nil => rfl
  case cons =>
    intro c s _ ih
    rw [wordsOf_toList_append, List.flatMap_cons, ih]

theorem blocksOf_length {bits : BitSeq} (h : bits.length % 4 = 0) : (blocksOf bits).length = bits.length / 4 := by
  have hlen := length_flatMap_of_length_eq Block4.length_toList (blocksOf bits)
  rw [flatMap_toList_blocksOf bits h] at hlen
  omega

theorem wordsOf_length {bits : BitSeq} (h : bits.length % 7 = 0) : (wordsOf bits).length = bits.length / 7 := by
  have hlen := length_flatMap_of_length_eq Codeword7.length_toList (wordsOf bits)
  rw [flatMap_toList_wordsOf bits h] at hlen
  omega

theorem slice_eq_toList_blocksOf {bits : BitSeq} (h : bits.length % 4 = 0) {k : Nat} (hk : k < (blocksOf bits).length) :
    slice bits (4 * k) (4 * k + 4) = (blocksOf bits)[k].toList := by
  have hgroup := slice_flatMap Block4.length_toList hk
  rwa [flatMap_toList_blocksOf bits h] at hgroup

theorem slice_eq_toList_wordsOf {bits : BitSeq} (h : bits.length % 7 = 0) {k : Nat} (hk : k < (wordsOf bits).length) :
    slice bits (7 * k) (7 * k + 7) = (wordsOf bits)[k].toList := by
  have hgroup := slice_flatMap Codeword7.length_toList hk
  rwa [flatMap_toList_wordsOf bits h] at hgroup

/-! ### The loop of `encodeStream` -/

theorem encodeBlocks_length {bits : BitSeq} (h : bits.length % 4 = 0) :
    (encodeBlocks bits).length = bits.length * 7 / 4 := by
  rw [encodeBlocks, length_flatMap_of_length_eq (n := 7) (fun d => Codeword7.length_toList (encodeBlock d)),
    blocksOf_length h]
  omega

theorem slice_encodeBlocks {bits : BitSeq} {k : Nat} (hk : k < (blocksOf bits).length) :
    slice (encodeBlocks bits) (7 * k) (7 * k + 7) = (encodeBlock (blocksOf bits)[k]).toList :=
  slice_flatMap (fun d => Codeword7.length_toList (encodeBlock d)) hk

theorem encodeStream_of_mod_eq_zero {bits : BitSeq} (h : bits.length % 4 = 0) :
    encodeStream bits = .ok (encodeBlocks bits) :=
  requireWhole_of_dvd (Nat.dvd_of_mod_eq_zero h) _

theorem encodeStream_of_mod_ne_zero {bits : BitSeq} (h : bits.length % 4 ≠ 0) :
    encodeStream bits = .fail .malformedLength :=
  requireWhole_of_not_dvd (mt Nat.mod_eq_zero_of_dvd h) _

/-! ### The loop of `decodeStream` -/

theorem decodeWords_length {bits : BitSeq} (h : bits.length % 7 = 0) :
    (decodeWords bits).length = bits.length * 4 / 7 := by
  rw [decodeWords, length_flatMap_of_length_eq (n := 4) (fun c => Block4.length_toList (decodeBlock c).1),
    wordsOf_length h]
  omega

theorem slice_decodeWords {bits : BitSeq} {k : Nat} (hk : k < (wordsOf bits).length) :
    slice (decodeWords bits) (4 * k) (4 * k + 4) = (decodeBlock (wordsOf bits)[k]).1.toList :=
  slice_flatMap (fun c => Block4.length_toList (decodeBlock c).1) hk

theorem decodeStream_of_mod_eq_zero {bits : BitSeq} (h : bits.length % 7 = 0) :
    decodeStream bits = .ok (decodeWords bits) :=
  requireWhole_of_dvd (Nat.dvd_of_mod_eq_zero h) _

theorem decodeStream_of_mod_ne_zero {bits : BitSeq} (h : bits.length % 7 ≠ 0) :
    decodeStream bits = .fail .malformedLength :=
  requireWhole_of_not_dvd (mt Nat.mod_eq_zero_of_dvd h) _

/-! ### The obligations on the streams -/

/-- Settles O29: behind the length check, block `k` of the argument and its codeword stand at place `k`. -/
theorem encodeStreamIsBlockwiseEnc : Obligations.EncodeStreamIsBlockwiseEnc := by
  refine ⟨fun bits => encodeStream_of_mod_ne_zero, fun bits h => ?_,
    fun bits => execCall_keeps_blocks (.encodeStream bits), rfl, rfl⟩
  refine ⟨encodeBlocks bits, encodeStream_of_mod_eq_zero h, encodeBlocks_length h, fun k hk => ?_⟩
  rw [← blocksOf_length h] at hk
  exact ⟨(blocksOf bits)[k], (slice_eq_toList_blocksOf h hk).symm, slice_encodeBlocks hk⟩

/-- Settles O30: behind the length check, word `k` of the argument and its corrected block stand at place `k`. -/
theorem decodeStreamIsWordwiseDec : Obligations.DecodeStreamIsWordwiseDec := by
  refine ⟨fun bits => decodeStream_of_mod_ne_zero, fun bits h => ?_,
    fun bits => execCall_keeps_blocks (.decodeStream bits), rfl, rfl, rfl⟩
  refine ⟨decodeWords bits, decodeStream_of_mod_eq_zero h, decodeWords_length h, fun k hk => ?_⟩
  rw [← wordsOf_length h] at hk
  exact ⟨(wordsOf bits)[k], (slice_eq_toList_wordsOf h hk).symm, slice_decodeWords hk⟩

/-- Settles O31: the lengths of the loops' results, whose quotients are exact because the whole groups divide the
length. -/
theorem streamLengthLaws : Obligations.StreamLengthLaws := by
  refine ⟨fun bits h => ⟨?_, ?_⟩, fun bits h => ⟨?_, ?_⟩⟩
  · exact (Nat.dvd_of_mod_eq_zero h).mul_right 7
  · exact ⟨encodeBlocks bits, encodeStream_of_mod_eq_zero h, encodeBlocks_length h⟩
  · exact (Nat.dvd_of_mod_eq_zero h).mul_right 4
  · exact ⟨decodeWords bits, decodeStream_of_mod_eq_zero h, decodeWords_length h⟩

end Sys2Proof.Machine
end

section
/-! The facade `decode` (44_facades.md R81). Each of its two length checks has one equation, and the byte packer's own
check behind the second one is on the same sequence. -/

namespace Sys2Proof.Machine

/-! ### One equation per outcome of the two checks -/

/-- The failure of the first check is surfaced unchanged. -/
theorem facadeDecode_of_mod_seven_ne_zero {bits : BitSeq} (h : bits.length % 7 ≠ 0) :
    facadeDecode bits = .fail .malformedLength := by
  rw [facadeDecode, decodeStream_of_mod_ne_zero h]
  rfl

/-- Behind the first check, the second one stands before the bytes of the decoded sequence. -/
theorem facadeDecode_of_mod_seven_eq_zero {bits : BitSeq} (h : bits.length % 7 = 0) :
    facadeDecode bits = requireWhole 8 (decodeWords bits) (bitsToBytes (decodeWords bits)) := by
  rw [facadeDecode, decodeStream_of_mod_eq_zero h]

theorem facadeDecode_of_decoded_mod_eight_ne_zero {bits : BitSeq} (h7 : bits.length % 7 = 0)
    (h8 : (decodeWords bits).length % 8 ≠ 0) : facadeDecode bits = .fail .malformedLength := by
  rw [facadeDecode_of_mod_seven_eq_zero h7]
  exact requireWhole_of_not_dvd (mt Nat.mod_eq_zero_of_dvd h8) _

theorem facadeDecode_of_decoded_mod_eight_eq_zero {bits : BitSeq} (h7 : bits.length % 7 = 0)
    (h8 : (decodeWords bits).length % 8 = 0) : facadeDecode bits = bitsToBytes (decodeWords bits) := by
  rw [facadeDecode_of_mod_seven_eq_zero h7]
  exact requireWhole_of_dvd (Nat.dvd_of_mod_eq_zero h8) _

/-- A byte for every 14 bits: 4 of 7 bits are kept, and 8 of those make a byte. -/
theorem bytesOf_decodeWords_length {bits : BitSeq} (h7 : bits.length % 7 = 0)
    (h8 : (decodeWords bits).length % 8 = 0) : (bytesOf (decodeWords bits)).length = bits.length / 14 := by
  rw [bytesOf_length h8, decodeWords_length h7]
  omega

/-! ### The obligation on the facade `decode` -/

/-- Settles O34: behind the check modulo 7 the decoded sequence is that of the stream decoder's loop, and its length
modulo 8 decides between the failure and the bytes. -/
theorem decodeFacadeChecksTwice : Obligations.DecodeFacadeChecksTwice := by
  refine ⟨fun bits h7 => ⟨decodeStream_of_mod_ne_zero h7, facadeDecode_of_mod_seven_ne_zero h7⟩, fun bits h7 => ?_,
    fun bits => execCall_keeps_blocks (.decode bits), rfl, rfl, rfl, rfl⟩
  refine ⟨decodeWords bits, decodeStream_of_mod_eq_zero h7, decodeWords_length h7,
    facadeDecode_of_decoded_mod_eight_ne_zero h7, fun h8 => ?_⟩
  have hvalue := facadeDecode_of_decoded_mod_eight_eq_zero h7 h8
  have hok := hvalue.trans (bitsToBytes_of_mod_eq_zero h8)
  exact ⟨hvalue, bytesOf (decodeWords bits), hok, bytesOf_decodeWords_length h7 h8⟩

end Sys2Proof.Machine
end

section
/-! The points that raise `MalformedLength` (60_exceptions.md R85, R86). A length check fails on its own length or lets
through the failure of what stands behind it; a result of an operation is the failure exactly when its value is. -/

namespace Sys2Proof.Machine

/-! ### When a value is the failure -/

/-- There is one fault only, so a failed sequence result is `MalformedLength` (R87). -/
theorem OpResult.failed_bitsResult_iff {r : Result BitSeq} :
    (OpResult.bitsResult r).failed = true ↔ r = .fail .malformedLength := by
  rcases r with bits | ⟨⟨⟩⟩ <;> simp [OpResult.failed]

theorem OpResult.failed_bytesResult_iff {r : Result ByteSeq} :
    (OpResult.bytesResult r).failed = true ↔ r = .fail .malformedLength := by
  rcases r with bytes | ⟨⟨⟩⟩ <;> simp [OpResult.failed]

/-- The failing half of `requireWhole_eq_ok`. -/
theorem requireWhole_eq_fail {α β : Type} {n : Nat} {s : List α} {r : Result β} :
    requireWhole n s r = .fail .malformedLength ↔ s.length % n ≠ 0 ∨ r = .fail .malformedLength := by
  by_cases h : n ∣ s.length
  · simp [requireWhole_of_dvd h, Nat.mod_eq_zero_of_dvd h]
  · simp [requireWhole_of_not_dvd h, mt Nat.dvd_of_mod_eq_zero h]

/-- A total value behind the check leaves the check as the only point of failure. -/
theorem requireWhole_ok_eq_fail {α β : Type} {n : Nat} {s : List α} {v : β} :
    requireWhole n s (.ok v) = .fail .malformedLength ↔ s.length % n ≠ 0 := by
  simp [requireWhole_eq_fail]

/-! ### The four operations that can fail -/

theorem bitsToBytes_eq_fail {bits : BitSeq} : bitsToBytes bits = .fail .malformedLength ↔ bits.length % 8 ≠ 0 :=
  requireWhole_ok_eq_fail

theorem encodeStream_eq_fail {bits : BitSeq} : encodeStream bits = .fail .malformedLength ↔ bits.length % 4 ≠ 0 :=
  requireWhole_ok_eq_fail

theorem decodeStream_eq_fail {bits : BitSeq} : decodeStream bits = .fail .malformedLength ↔ bits.length % 7 ≠ 0 :=
  requireWhole_ok_eq_fail

/-- Behind the check modulo 7 the second check and the byte packer's own are both on the `len*4/7` decoded bits. -/
theorem facadeDecode_eq_fail {bits : BitSeq} : facadeDecode bits = .fail .malformedLength ↔
    bits.length % 7 ≠ 0 ∨ bits.length % 7 = 0 ∧ bits.length * 4 / 7 % 8 ≠ 0 := by
  by_cases h7 : bits.length % 7 = 0
  · rw [facadeDecode_of_mod_seven_eq_zero h7, requireWhole_eq_fail, bitsToBytes_eq_fail, or_self, decodeWords_length h7]
    simp [h7]
  · simp [facadeDecode_of_mod_seven_ne_zero h7, h7]

/-! ### The obligation on the failure points -/

/-- Settles O38: a codeword, a corrected block and a plain bit sequence are no failure by their form, and the other four
operations fail exactly where one of their length checks does. -/
theorem failurePointsTable : Obligations.FailurePointsTable :=
  ⟨fun _ => rfl, fun _ => rfl, fun _ => rfl,
    fun _ => OpResult.failed_bytesResult_iff.trans bitsToBytes_eq_fail,
    fun _ => OpResult.failed_bitsResult_iff.trans encodeStream_eq_fail,
    fun _ => OpResult.failed_bitsResult_iff.trans decodeStream_eq_fail,
    fun _ => rfl,
    fun _ => OpResult.failed_bytesResult_iff.trans facadeDecode_eq_fail⟩

end Sys2Proof.Machine
end

section
/-! Programs of request words (30_encoding.md R37, R40; 92_eei_decisions.md D9): decoding and encoding of whole lists,
word by word. -/

namespace Sys2Proof

open Machine

/-! ### One word in front of a program -/

theorem decode_cons_of_decodeWord {w : RequestWord} {i : Instr} (h : decodeWord w = .ok i) (rest : List RequestWord) :
    decode (w :: rest) = .ok (i, rest) := by
  simp only [decode, h]

theorem decodeWord_of_decode_singleton {w : RequestWord} {i : Instr} {rest : List RequestWord}
    (h : decode [w] = .ok (i, rest)) : decodeWord w = .ok i := by
  cases hw : decodeWord w with
  | ok j =>
    rw [decode_cons_of_decodeWord hw] at h
    cases h
    rfl
  | error e => simp [decode, hw] at h

/-- A program decodes exactly when its first word and the words behind it do. -/
theorem decodeProgram_cons_eq_ok {w : RequestWord} {ws : List RequestWord} {is : List Instr} :
    decodeProgram (w :: ws) = .ok is ↔
      ∃ i js, decodeWord w = .ok i ∧ decodeProgram ws = .ok js ∧ i :: js = is := by
  rw [decodeProgram]
  cases decodeWord w <;> cases decodeProgram ws <;> simp

/-! ### Whole programs -/

theorem decodeProgram_flatMap_encode (is : List Instr) : decodeProgram (is.flatMap encode) = .ok is := by
  induction is with
  | nil => rfl
  | cons i is ih => exact decodeProgram_cons_eq_ok.2 ⟨i, is, decodeWord_encodeWord i, ih, rfl⟩

theorem flatMap_encode_of_decodeProgram {ws : List RequestWord} {is : List Instr} (h : decodeProgram ws = .ok is) :
    is.flatMap encode = ws := by
  induction ws generalizing is with
  | nil => cases h; rfl
  | cons w ws ih =>
    obtain ⟨i, js, hw, hws, rfl⟩ := decodeProgram_cons_eq_ok.1 h
    rw [List.flatMap_cons, ih hws, encode, encodeWord_of_decodeWord hw, List.singleton_append]

theorem wellFormedProgram_iff_decodes (ws : List RequestWord) :
    wellFormedProgram ws = true ↔ ∃ is, decodeProgram ws = .ok is := by
  induction ws with
  | nil => exact ⟨fun _ => ⟨[], rfl⟩, fun _ => rfl⟩
  | cons w ws ih =>
    have hcons : wellFormedProgram (w :: ws) = true ↔ RequestWord.wellFormed w = true ∧ wellFormedProgram ws = true := by
      simp [wellFormedProgram]
    rw [hcons, ih, wellFormed_iff_decodes]
    constructor
    · rintro ⟨⟨i, hw⟩, js, hws⟩
      exact ⟨i :: js, decodeProgram_cons_eq_ok.2 ⟨i, js, hw, hws, rfl⟩⟩
    · rintro ⟨is, h⟩
      obtain ⟨i, js, hw, hws, -⟩ := decodeProgram_cons_eq_ok.1 h
      exact ⟨⟨i, hw⟩, js, hws⟩

/-! ### The obligations on programs -/

/-- Settles O22, by induction over the list of words or of instructions, each word decoding and encoding on its own. -/
theorem programsDecodeToWhatTheyEncode : Obligations.ProgramsDecodeToWhatTheyEncode :=
  ⟨decodeProgram_flatMap_encode, fun i rest => decode_cons_of_decodeWord (decodeWord_encodeWord i) rest,
    fun _ _ => flatMap_encode_of_decodeProgram, wellFormedProgram_iff_decodes⟩

/-- Settles O23: the first four words are encodings, and the last one is refused by R40. -/
theorem sampleRequestWordsDecode : Obligations.SampleRequestWordsDecode :=
  ⟨decodeWord_encodeWord (.enc ⟨true, false, true, true⟩),
    decodeWord_encodeWord (.dec ⟨false, true, false, false, false, true, true⟩),
    decodeWord_encodeWord (.enc ⟨false, true, false, false⟩),
    decodeWord_encodeWord (.dec ⟨true, false, true, false, false, true, true⟩),
    (decodeWord_eq_noOperation_iff 0x10#8).2 (by decide)⟩

end Sys2Proof
end

section
/-! The exclusive-or of blocks and of words, and the encoder as a linear map (40_encoder.md R46 to R49). -/

namespace Sys2Proof.Machine

/-! ### Exclusive-or -/

theorem xorWord_assoc (a b c : Codeword7) : xorWord (xorWord a b) c = xorWord a (xorWord b c) := by
  simp [xorWord]

theorem xorWord_comm (a b : Codeword7) : xorWord a b = xorWord b a := by
  simp [xorWord, Bool.xor_comm]

@[simp] theorem xorWord_cancel_left (a b : Codeword7) : xorWord a (xorWord a b) = b := by
  simp [xorWord]

/-- A block plus an error is the block exactly when the error is zero. -/
theorem xorBlock_eq_left_iff {a b : Block4} : xorBlock a b = a ↔ b = ⟨false, false, false, false⟩ := by
  have hbit : ∀ x y : Bit, (x ^^ y) = x ↔ y = false := by decide
  cases a
  cases b
  simp [xorBlock, hbit]

theorem xorBlock_eq_zero_iff {a b : Block4} : xorBlock a b = ⟨false, false, false, false⟩ ↔ a = b := by
  cases a
  cases b
  simp [xorBlock]

theorem extract_xorWord (a b : Codeword7) : extract (xorWord a b) = xorBlock (extract a) (extract b) := rfl

/-! ### Linearity -/

theorem encodeBlock_xorBlock (a b : Block4) : encodeBlock (xorBlock a b) = xorWord (encodeBlock a) (encodeBlock b) := by
  simp only [encodeBlock_eq, xorBlock, xorWord, Bool.xor_assoc, Bool.xor_left_comm]

/-- A block is the sum of the unit blocks that its bits select. -/
theorem Block4.eq_sum_of_units (d : Block4) : d =
    xorBlock (xorBlock (cond d.d0 ⟨true, false, false, false⟩ ⟨false, false, false, false⟩)
        (cond d.d1 ⟨false, true, false, false⟩ ⟨false, false, false, false⟩))
      (xorBlock (cond d.d2 ⟨false, false, true, false⟩ ⟨false, false, false, false⟩)
        (cond d.d3 ⟨false, false, false, true⟩ ⟨false, false, false, false⟩)) := by
  revert d
  rw [Block4.forall_bits]
  decide

/-- Settles O4: ENC commutes with the sum of a block's units, whose codewords are the rows of G. -/
theorem encIsLinearWithGeneratorMatrix : Obligations.EncIsLinearWithGeneratorMatrix := by
  refine ⟨encodeBlock_xorBlock, rfl, _, _, _, _, ⟨?_, ?_, ?_, ?_⟩, ⟨rfl, rfl, rfl, rfl⟩, fun d => ?_⟩
  · rfl
  · rfl
  · rfl
  · rfl
  · refine (congrArg encodeBlock (Block4.eq_sum_of_units d)).trans ?_
    simp only [encodeBlock_xorBlock, Bool.apply_cond encodeBlock]
    rfl

/-! ### The valid words are the codewords -/

theorem encodeBlock_injective : Function.Injective encodeBlock := Function.LeftInverse.injective extract_encodeBlock

/-- A word is the codeword of its own data bits exactly when its parity bits are the recomputed ones. -/
theorem encodeBlock_extract_eq_iff (c : Codeword7) : encodeBlock (extract c) = c ↔
    c.c0 = parity1 (extract c) ∧ c.c1 = parity2 (extract c) ∧ c.c3 = parity3 (extract c) := by
  cases c
  simp [encodeBlock, interleave, extract, eq_comm]

/-- Each check compares a received parity bit with the recomputed one. -/
theorem isValid_iff_parities (c : Codeword7) : isValid c = true ↔
    c.c0 = parity1 (extract c) ∧ c.c1 = parity2 (extract c) ∧ c.c3 = parity3 (extract c) := by
  have h1 : check1 c = (c.c0 ^^ parity1 (extract c)) := check1_interleave c.c0 c.c1 c.c3 (extract c)
  have h2 : check2 c = (c.c1 ^^ parity2 (extract c)) := check2_interleave c.c0 c.c1 c.c3 (extract c)
  have h3 : check3 c = (c.c3 ^^ parity3 (extract c)) := check3_interleave c.c0 c.c1 c.c3 (extract c)
  rw [isValid_iff, h1, h2, h3]
  simp only [bne_eq_false_iff_eq]

theorem encodeBlock_extract_of_isValid {c : Codeword7} (h : isValid c = true) : encodeBlock (extract c) = c :=
  (encodeBlock_extract_eq_iff c).2 ((isValid_iff_parities c).1 h)

theorem isValid_iff_exists_encodeBlock (c : Codeword7) : isValid c = true ↔ ∃ d, encodeBlock d = c :=
  ⟨fun h => ⟨extract c, encodeBlock_extract_of_isValid h⟩, fun ⟨d, hd⟩ => hd ▸ isValid_encodeBlock d⟩

/-- Settles O5: the block is read back from its codeword, and a word is a codeword exactly when its parity bits are those
of its data bits, which is what the checks compare. -/
theorem encIsInjectiveOntoTheValidCodewords : Obligations.EncIsInjectiveOntoTheValidCodewords := by
  refine ⟨fun _ _ h => encodeBlock_injective h, extract_encodeBlock, fun c => ⟨?_, fun h => ?_⟩, fun c => ?_, fun c => ?_⟩
  · rintro ⟨d, rfl⟩
    revert d
    rw [Block4.forall_bits]
    decide
  · have hvalid : ∀ v ∈ [0x00#7, 0x69#7, 0x2A#7, 0x43#7, 0x4C#7, 0x25#7, 0x66#7, 0x0F#7, 0x70#7, 0x19#7, 0x5A#7, 0x33#7,
        0x3C#7, 0x55#7, 0x16#7, 0x7F#7], isValid (Codeword7.ofPort v) = true := by decide
    rw [← isValid_iff_exists_encodeBlock, ← Codeword7.ofPort_toPort c]
    exact hvalid _ h
  · rw [← isValid_iff_exists_encodeBlock]
    exact isValid_iff_parities c
  · rw [← isValid_iff_exists_encodeBlock]
    exact isValid_iff c

/-! ### Weights and distances -/

/-- The weights of the function table, in the order of the block values. -/
theorem weights_of_codewords :
    (List.range 16).map (fun n => weight (encodeBlock (Block4.ofPort (BitVec.ofNat 4 n)))) =
      [0, 4, 3, 3, 3, 3, 4, 4, 3, 3, 4, 4, 4, 4, 3, 7] := by decide

theorem three_le_weight_encodeBlock :
    ∀ d : Block4, d ≠ ⟨false, false, false, false⟩ → 3 ≤ weight (encodeBlock d) := by
  rw [Block4.forall_bits]
  decide

/-- Settles O6: the distance of two codewords is the weight of the codeword of their blocks' difference. -/
theorem codewordsDifferInAtLeastThreeBits : Obligations.CodewordsDifferInAtLeastThreeBits := by
  refine ⟨fun a b hne => ?_, ⟨⟨true, false, false, false⟩, ⟨false, false, false, false⟩, rfl⟩,
    fun a b => ⟨xorBlock a b, (encodeBlock_xorBlock a b).symm⟩, fun k => ?_⟩
  · rw [← encodeBlock_xorBlock]
    exact three_le_weight_encodeBlock _ (mt xorBlock_eq_zero_iff.1 (mt (congrArg encodeBlock) hne))
  · rw [weights_of_codewords]
    rcases Nat.lt_or_ge k 8 with hk | hk
    · revert k
      decide
    · rw [List.count_eq_zero.2, if_neg (by omega), if_neg (by omega)]
      simp only [List.mem_cons, List.not_mem_nil, or_false, not_or]
      omega

/-! ### The encoder as an instruction -/

/-- Settles O2: the one result of an instruction is its operation's value. -/
theorem encCompletesAndChangesNothingElse : Obligations.EncCompletesAndChangesNothingElse :=
  fun d s => exec_eq_answer (.enc d) s

/-- Settles O3, evaluating the 16 rows. -/
theorem encFunctionTable : Obligations.EncFunctionTable := by
  unfold Obligations.EncFunctionTable
  decide

end Sys2Proof.Machine
end

section
/-! The syndrome as a linear map (41_decoder.md R64), and what it says of every received word: the nearest codeword
(R63), the closed form of the outputs (R60), the values for two and more flips (R62), and the counts of R39. -/

namespace Sys2Proof.Machine

/-! ### Linearity of the checks and of the position -/

theorem checks_xorWord (a b : Codeword7) :
    check1 (xorWord a b) = (check1 a ^^ check1 b) ∧ check2 (xorWord a b) = (check2 a ^^ check2 b) ∧
    check3 (xorWord a b) = (check3 a ^^ check3 b) := by
  simp only [check1, check2, check3, xorWord, Bool.xor_assoc, Bool.xor_left_comm, and_self]

/-- The weighted sum of three checks is linear, since each of its bits is one of the checks. -/
theorem weightedSum_xor : ∀ s1 s2 s3 t1 t2 t3 : Bit,
    BitVec.ofNat 3 ((s1 ^^ t1).toNat + 2 * (s2 ^^ t2).toNat + 4 * (s3 ^^ t3).toNat) =
      BitVec.ofNat 3 (s1.toNat + 2 * s2.toNat + 4 * s3.toNat) ^^^
        BitVec.ofNat 3 (t1.toNat + 2 * t2.toNat + 4 * t3.toNat) := by decide

theorem errorPosition_xorWord (a b : Codeword7) :
    errorPosition (xorWord a b) = errorPosition a ^^^ errorPosition b := by
  obtain ⟨h1, h2, h3⟩ := checks_xorWord a b
  rw [errorPosition, h1, h2, h3]
  exact weightedSum_xor ..

theorem errorPosition_unit : ∀ k : ErrPos, errorPosition (unit k) = k := by decide

theorem errorPosition_encodeBlock (d : Block4) : errorPosition (encodeBlock d) = 0#3 :=
  errorPosition_of_isValid (isValid_encodeBlock d)

theorem isValid_iff_errorPosition_eq_zero (c : Codeword7) : isValid c = true ↔ errorPosition c = 0#3 := by
  rw [isValid_iff, errorPosition_eq_zero_iff]

/-- An error pattern on a codeword leaves its own position. -/
theorem errorPosition_xorWord_encodeBlock (d : Block4) (e : Codeword7) :
    errorPosition (xorWord (encodeBlock d) e) = errorPosition e := by
  rw [errorPosition_xorWord, errorPosition_encodeBlock, BitVec.zero_xor]

/-! ### The corrected copy is a codeword -/

theorem isValid_correctedCopy (w : Codeword7) : isValid (correctedCopy w) = true := by
  rw [isValid_iff_errorPosition_eq_zero, correctedCopy_eq_xor_unit, errorPosition_xorWord, errorPosition_unit,
    BitVec.xor_self]

/-- The codeword of the decoded block is the copy. -/
theorem encodeBlock_decodeBlock (w : Codeword7) : encodeBlock (decodeBlock w).1 = correctedCopy w :=
  encodeBlock_extract_of_isValid (isValid_correctedCopy w)

/-- An error pattern on a codeword is corrected as it would be on the zero word. -/
theorem correctedCopy_xorWord_encodeBlock (d : Block4) (e : Codeword7) :
    correctedCopy (xorWord (encodeBlock d) e) = xorWord (encodeBlock d) (correctedCopy e) := by
  rw [correctedCopy_eq_xor_unit, correctedCopy_eq_xor_unit, errorPosition_xorWord_encodeBlock, xorWord_assoc]

/-- What an error pattern adds to the block is what it decodes to on its own. -/
theorem decodeBlock_xorWord_encodeBlock (d : Block4) (e : Codeword7) :
    (decodeBlock (xorWord (encodeBlock d) e)).1 = xorBlock d (decodeBlock e).1 := by
  rw [decodeBlock_eq, decodeBlock_eq, correctedCopy_xorWord_encodeBlock, extract_xorWord, extract_encodeBlock]

/-! ### Weights of errors -/

theorem weight_unit_le_one : ∀ k : ErrPos, weight (unit k) ≤ 1 := by decide

theorem weight_unit_of_ne_zero : ∀ k : ErrPos, k ≠ 0#3 → weight (unit k) = 1 := by decide

/-- A received word is at most one flip away from its copy. -/
theorem xorWord_correctedCopy (w : Codeword7) : xorWord w (correctedCopy w) = unit (errorPosition w) := by
  rw [correctedCopy_eq_xor_unit, xorWord_cancel_left]

/-- On the zero word exactly the patterns of at most one flip are undone. -/
theorem decodeBlock_eq_zero_iff : ∀ e : Codeword7,
    (decodeBlock e).1 = ⟨false, false, false, false⟩ ↔ weight e ≤ 1 := by
  rw [Codeword7.forall_bits]
  decide

/-- The sent block comes back exactly when at most one bit was flipped. -/
theorem decodeBlock_xorWord_encodeBlock_eq_iff (d : Block4) (e : Codeword7) :
    (decodeBlock (xorWord (encodeBlock d) e)).1 = d ↔ weight e ≤ 1 := by
  rw [decodeBlock_xorWord_encodeBlock, xorBlock_eq_left_iff, decodeBlock_eq_zero_iff]

/-- DEC returns a block exactly when its codeword is within one flip of the received word. -/
theorem decodeBlock_eq_iff_weight_le_one (w : Codeword7) (d : Block4) :
    (decodeBlock w).1 = d ↔ weight (xorWord w (encodeBlock d)) ≤ 1 := by
  have h := decodeBlock_xorWord_encodeBlock_eq_iff d (xorWord (encodeBlock d) w)
  rwa [xorWord_cancel_left, xorWord_comm] at h

/-! ### Two and three flips -/

theorem weight_two_units : ∀ i j : ErrPos, i ≠ 0#3 → j ≠ 0#3 → i ≠ j → weight (xorWord (unit i) (unit j)) = 2 := by
  decide

theorem errorPosition_two_units (i j : ErrPos) : errorPosition (xorWord (unit i) (unit j)) = i ^^^ j := by
  rw [errorPosition_xorWord, errorPosition_unit, errorPosition_unit]

/-- The reported position of two flips is neither of theirs, nor none. -/
theorem xor_positions_ne : ∀ i j : ErrPos, i ≠ 0#3 → j ≠ 0#3 → i ≠ j →
    i ^^^ j ≠ 0#3 ∧ i ^^^ j ≠ i ∧ i ^^^ j ≠ j := by decide

/-- The third flip, made by the correction, completes two flips to a codeword of weight 3. -/
theorem weight_correctedCopy_two_units : ∀ i j : ErrPos, i ≠ 0#3 → j ≠ 0#3 → i ≠ j →
    weight (correctedCopy (xorWord (unit i) (unit j))) = 3 := by decide

/-- The seven codewords of weight 3, as the positions of their ones. -/
theorem errorPosition_eq_zero_iff_of_weight_three : ∀ e : Codeword7, weight e = 3 →
    (errorPosition e = 0#3 ↔ ∃ t ∈ [(1#3, 2#3, 3#3), (1#3, 4#3, 5#3), (1#3, 6#3, 7#3), (2#3, 4#3, 6#3),
      (2#3, 5#3, 7#3), (3#3, 4#3, 7#3), (3#3, 5#3, 6#3)],
      e = xorWord (unit t.1) (xorWord (unit t.2.1) (unit t.2.2))) := by
  rw [Codeword7.forall_bits]
  decide

/-- Settles O14: by linearity the position and the copy of a word are those of its error pattern, added to the sent
codeword. -/
theorem severalFlipsAreSilentlyMiscorrected : Obligations.SeveralFlipsAreSilentlyMiscorrected := by
  refine ⟨fun d e => ⟨errorPosition_xorWord_encodeBlock d e, decodeBlock_xorWord_encodeBlock_eq_iff d e⟩,
    fun d i j hi hj hij => ?_, fun d e he => ⟨?_, ?_, ?_⟩, ?_, fun w s => ⟨_, exec_eq_answer (.dec w) s⟩⟩
  · intro w
    have hpos : (decodeBlock w).2 = i ^^^ j :=
      (errorPosition_xorWord_encodeBlock d _).trans (errorPosition_two_units i j)
    have hcopy : correctedCopy w = xorWord w (unit (i ^^^ j)) := hpos ▸ correctedCopy_eq_xor_unit w
    obtain ⟨hzero, hleft, hright⟩ := hpos ▸ xor_positions_ne i j hi hj hij
    refine ⟨hpos, hzero, hleft, hright, hcopy, ⟨_, (encodeBlock_decodeBlock w).symm⟩, ?_, ?_⟩
    · rw [correctedCopy_xorWord_encodeBlock, xorWord_comm, xorWord_cancel_left]
      exact weight_correctedCopy_two_units i j hi hj hij
    · rw [Ne, decodeBlock_xorWord_encodeBlock_eq_iff, weight_two_units i j hi hj hij]
      decide
  · rw [← errorPosition_eq_zero_iff_of_weight_three e he]
    exact Eq.congr_left (errorPosition_xorWord_encodeBlock d e)
  · rw [← isValid_iff_exists_encodeBlock, isValid_iff_errorPosition_eq_zero]
    exact Eq.congr_left (errorPosition_xorWord_encodeBlock d e)
  · rw [Ne, decodeBlock_xorWord_encodeBlock_eq_iff, he]
    decide
  · decide

/-! ### The nearest codeword -/

theorem countP_decodeBlock_fst : ∀ d : Block4,
    ((List.range 128).countP fun n => (decodeBlock (Codeword7.ofPort (BitVec.ofNat 7 n))).1 == d) = 8 := by
  rw [Block4.forall_bits]
  decide

/-- Settles O15: DEC returns exactly the block whose codeword is within one flip of the word, so every other codeword is
farther away. -/
theorem decReturnsTheNearestCodeword : Obligations.DecReturnsTheNearestCodeword := by
  refine ⟨fun w => ⟨_, (encodeBlock_decodeBlock w).symm⟩, fun w => ?_, fun w => ?_, countP_decodeBlock_fst, by decide⟩
  · have hnear : weight (xorWord w (encodeBlock (decodeBlock w).1)) ≤ 1 := (decodeBlock_eq_iff_weight_le_one w _).1 rfl
    have honly : ∀ d', weight (xorWord w (encodeBlock d')) ≤ 1 → d' = (decodeBlock w).1 :=
      fun d' h => ((decodeBlock_eq_iff_weight_le_one w d').2 h).symm
    exact ⟨(decodeBlock w).1, hnear, rfl, honly, fun d' hne => hnear.trans_lt (Nat.lt_of_not_le (mt (honly d') hne))⟩
  · exact (encodeBlock_decodeBlock w).trans (correctedCopy_eq_xor_unit w)

/-- The product of a word with the three rows of the check matrix H. -/
theorem checks_eq_product : ∀ c : Codeword7,
    (check1 c).toNat = ones (List.zipWith and (Codeword7.ofPort 0b1010101#7).toList c.toList) % 2 ∧
    (check2 c).toNat = ones (List.zipWith and (Codeword7.ofPort 0b0110011#7).toList c.toList) % 2 ∧
    (check3 c).toNat = ones (List.zipWith and (Codeword7.ofPort 0b0001111#7).toList c.toList) % 2 := by
  rw [Codeword7.forall_bits]
  decide

/-- Settles O16: each check is linear, and it is the product with its row of H. -/
theorem syndromeIsLinearWithCheckMatrix : Obligations.SyndromeIsLinearWithCheckMatrix := by
  refine ⟨errorPosition_xorWord, errorPosition_encodeBlock, fun k _ => errorPosition_unit k, _, _, _, ?_,
    checks_eq_product, fun k hpos hle => ?_⟩
  · exact ⟨Codeword7.toPort_ofPort _, Codeword7.toPort_ofPort _, Codeword7.toPort_ofPort _⟩
  · interval_cases k <;> rfl

/-! ### Every operand is legal -/

/-- A valid word within one flip of another word is the copy of that word. -/
theorem eq_correctedCopy_of_weight_le_one {c v : Codeword7} (hv : isValid v = true) (h : weight (xorWord c v) ≤ 1) :
    v = correctedCopy c := by
  obtain ⟨d, rfl⟩ := (isValid_iff_exists_encodeBlock v).1 hv
  rw [← encodeBlock_decodeBlock, (decodeBlock_eq_iff_weight_le_one c d).2 h]

/-- Settles O20: the copy of a word that is not valid is its one valid neighbour. -/
theorem noOperandIsIllegal : Obligations.NoOperandIsIllegal := by
  refine ⟨fun i s => ⟨?_, _, exec_eq_answer i s⟩, by decide, isValid_iff_errorPosition_eq_zero, fun c hc => ?_⟩
  · cases i <;> rfl
  · have hpos : errorPosition c ≠ 0#3 := by
      rw [Ne, ← isValid_iff_errorPosition_eq_zero, hc]
      exact Bool.false_ne_true
    refine ⟨correctedCopy c, isValid_correctedCopy c, ?_, fun v hv h => eq_correctedCopy_of_weight_le_one hv h.le⟩
    rw [xorWord_correctedCopy]
    exact weight_unit_of_ne_zero _ hpos

/-! ### The closed form -/

/-- R58 on the data bits: the position complements the one it names. -/
theorem decodeBlock_fst_eq (c : Codeword7) : (decodeBlock c).1 =
    ⟨c.c2 ^^ (errorPosition c == 3#3), c.c4 ^^ (errorPosition c == 5#3), c.c5 ^^ (errorPosition c == 6#3),
      c.c6 ^^ (errorPosition c == 7#3)⟩ :=
  congrArg extract (correctedCopy_eq_xor_unit c)

theorem weightedSum_beq_dataPositions : ∀ s1 s2 s3 : Bit,
    (BitVec.ofNat 3 (s1.toNat + 2 * s2.toNat + 4 * s3.toNat) == 3#3) = (s1 && s2 && !s3) ∧
    (BitVec.ofNat 3 (s1.toNat + 2 * s2.toNat + 4 * s3.toNat) == 5#3) = (s1 && !s2 && s3) ∧
    (BitVec.ofNat 3 (s1.toNat + 2 * s2.toNat + 4 * s3.toNat) == 6#3) = (!s1 && s2 && s3) ∧
    (BitVec.ofNat 3 (s1.toNat + 2 * s2.toNat + 4 * s3.toNat) == 7#3) = (s1 && s2 && s3) := by decide

/-- R60: the position names a data bit by a product of the checks. -/
theorem decodeBlock_fst_eq_closedForm (c : Codeword7) : (decodeBlock c).1 =
    ⟨c.c2 ^^ (check1 c && check2 c && !check3 c), c.c4 ^^ (check1 c && !check2 c && check3 c),
      c.c5 ^^ (!check1 c && check2 c && check3 c), c.c6 ^^ (check1 c && check2 c && check3 c)⟩ := by
  obtain ⟨h3, h5, h6, h7⟩ := weightedSum_beq_dataPositions (check1 c) (check2 c) (check3 c)
  rw [decodeBlock_fst_eq, errorPosition, h3, h5, h6, h7]

/-- `data_out` carries the block of the word on `code_in`. -/
theorem ofPort_dataOut (v : BitVec 7) :
    Block4.ofPort (decoderBlock v).dataOut = (decodeBlock (Codeword7.ofPort v)).1 := Block4.ofPort_toPort _

/-- Settles O12: the position complements the data bit that it names, and the checks say which position it is. -/
theorem decClosedFormWithoutTheCopy : Obligations.DecClosedFormWithoutTheCopy := by
  refine ⟨fun c => ?_, fun v => ?_⟩
  · rw [decodeBlock_fst_eq_closedForm]
    exact ⟨rfl, rfl, rfl, rfl⟩
  · have hports := ofPort_dataOut v
    rw [decodeBlock_fst_eq] at hports
    exact ⟨congrArg Block4.d0 hports, congrArg Block4.d1 hports, congrArg Block4.d2 hports, congrArg Block4.d3 hports⟩

/-- Settles O8: the one result of an instruction is its operation's value, here in the closed form. -/
theorem decCompletesAndChangesNothingElse : Obligations.DecCompletesAndChangesNothingElse := by
  intro c s s1 s2 s3
  rw [exec_eq_answer, Op.value, decodeBlock_fst_eq_closedForm]
  rfl

/-- Settles O18: assembly, extraction and checks are the listed ones, and a flip adds its position to the checks. -/
theorem operandAssemblyAndCheckCoverage : Obligations.OperandAssemblyAndCheckCoverage := by
  refine ⟨fun d => ⟨rfl, rfl, rfl, rfl, rfl⟩, fun cc => rfl, fun c => ⟨rfl, rfl, rfl⟩, fun c i hi => ?_⟩
  have hbit : ∀ x y : Bit, (x ^^ y) ≠ x ↔ y = true := by decide
  obtain ⟨h1, h2, h3⟩ := checks_flipBit c hi
  rw [h1, h2, h3]
  exact ⟨hbit _ _, hbit _ _, hbit _ _⟩

end Sys2Proof.Machine
end

section
/-! Concatenated sequences (20_memory.md R23), packing as an inverse (42_bitpacker.md R72), the streams under errors
(43_stream.md R78), and the facades (44_facades.md R80, R82, R83). A stream is the concatenation of its words, so adding
an error sequence adds one error word to each. -/

namespace Sys2Proof.Machine

/-! ### Grouping a concatenation -/

theorem blocksOf_append (t : BitSeq) : ∀ s : BitSeq, s.length % 4 = 0 → blocksOf (s ++ t) = blocksOf s ++ blocksOf t := by
  apply blocks_induction
  case nil => rfl
  case cons =>
    intro d s _ ih
    rw [List.append_assoc, blocksOf_toList_append, blocksOf_toList_append, ih, List.cons_append]

theorem wordsOf_append (t : BitSeq) : ∀ s : BitSeq, s.length % 7 = 0 → wordsOf (s ++ t) = wordsOf s ++ wordsOf t := by
  apply words_induction
  case nil => rfl
  case cons =>
    intro c s _ ih
    rw [List.append_assoc, wordsOf_toList_append, wordsOf_toList_append, ih, List.cons_append]

theorem bytesOf_append (t : BitSeq) : ∀ s : BitSeq, s.length % 8 = 0 → bytesOf (s ++ t) = bytesOf s ++ bytesOf t := by
  apply bytes_induction
  case nil => rfl
  case cons =>
    intro b s _ ih
    rw [List.append_assoc, bytesOf_bitsOfByte_append, bytesOf_bitsOfByte_append, ih, List.cons_append]

theorem encodeStream_eq_ok {s c : BitSeq} : encodeStream s = .ok c ↔ s.length % 4 = 0 ∧ encodeBlocks s = c := by
  rw [encodeStream, requireWhole_eq_ok, Nat.dvd_iff_mod_eq_zero, Result.ok.injEq]

theorem decodeStream_eq_ok {s d : BitSeq} : decodeStream s = .ok d ↔ s.length % 7 = 0 ∧ decodeWords s = d := by
  rw [decodeStream, requireWhole_eq_ok, Nat.dvd_iff_mod_eq_zero, Result.ok.injEq]

theorem bitsToBytes_eq_ok {s : BitSeq} {b : ByteSeq} : bitsToBytes s = .ok b ↔ s.length % 8 = 0 ∧ bytesOf s = b := by
  rw [bitsToBytes, requireWhole_eq_ok, Nat.dvd_iff_mod_eq_zero, Result.ok.injEq]

/-- The lengths of two whole sequences add up to the length of a whole sequence. -/
theorem length_append_mod_eq_zero {α : Type} {n : Nat} {s t : List α} (hs : s.length % n = 0) (ht : t.length % n = 0) :
    (s ++ t).length % n = 0 := by
  rw [List.length_append, Nat.add_mod, hs, ht, Nat.add_zero, Nat.zero_mod]

/-! ### The two blocks of a byte -/

/-- The block of the four more significant bits of a byte. -/
def highNibble (b : Byte) : Block4 := Block4.ofPort (BitVec.ofNat 4 (b.toNat / 16))

/-- The block of the four less significant bits of a byte. -/
def lowNibble (b : Byte) : Block4 := Block4.ofPort (BitVec.ofNat 4 (b.toNat % 16))

theorem bitsOfByte_eq_nibbles : ∀ b : Byte, bitsOfByte b = (highNibble b).toList ++ (lowNibble b).toList := by decide

theorem blocksOf_bytesToBits (bytes : ByteSeq) :
    blocksOf (bytesToBits bytes) = bytes.flatMap fun b => [highNibble b, lowNibble b] := by
  induction bytes with
  | nil => rfl
  | cons b bytes ih =>
    rw [bytesToBits_cons, bitsOfByte_eq_nibbles, List.append_assoc, blocksOf_toList_append, blocksOf_toList_append, ih]
    rfl

/-- Settles O25: a whole sequence in front leaves the grouping of what stands behind it. -/
theorem unitsStandInInputOrder : Obligations.UnitsStandInInputOrder := by
  refine ⟨blocksOf_bytesToBits, fun s t c hc c' hc' => ?_, fun s t d hd d' hd' => ?_, fun s t a ha b hb => ?_⟩
  · obtain ⟨hs, rfl⟩ := encodeStream_eq_ok.1 hc
    obtain ⟨ht, rfl⟩ := encodeStream_eq_ok.1 hc'
    refine encodeStream_eq_ok.2 ⟨length_append_mod_eq_zero hs ht, ?_⟩
    rw [encodeBlocks, blocksOf_append t s hs, List.flatMap_append]
    rfl
  · obtain ⟨hs, rfl⟩ := decodeStream_eq_ok.1 hd
    obtain ⟨ht, rfl⟩ := decodeStream_eq_ok.1 hd'
    refine decodeStream_eq_ok.2 ⟨length_append_mod_eq_zero hs ht, ?_⟩
    rw [decodeWords, wordsOf_append t s hs, List.flatMap_append]
    rfl
  · obtain ⟨hs, rfl⟩ := bitsToBytes_eq_ok.1 ha
    obtain ⟨ht, rfl⟩ := bitsToBytes_eq_ok.1 hb
    exact bitsToBytes_eq_ok.2 ⟨length_append_mod_eq_zero hs ht, bytesOf_append t s hs⟩

/-! ### Packing is an inverse -/

theorem bytesOf_bytesToBits (bytes : ByteSeq) : bytesOf (bytesToBits bytes) = bytes := by
  induction bytes with
  | nil => rfl
  | cons b bytes ih => rw [bytesToBits_cons, bytesOf_bitsOfByte_append, ih]

theorem bytesToBits_length_mod_eight (bytes : ByteSeq) : (bytesToBits bytes).length % 8 = 0 := by
  rw [bytesToBits_length, Nat.mul_mod_right]

theorem bytesToBits_length_mod_four (bytes : ByteSeq) : (bytesToBits bytes).length % 4 = 0 := by
  rw [bytesToBits_length]
  omega

theorem bitsToBytes_bytesToBits (bytes : ByteSeq) : bitsToBytes (bytesToBits bytes) = .ok bytes :=
  bitsToBytes_eq_ok.2 ⟨bytesToBits_length_mod_eight bytes, bytesOf_bytesToBits bytes⟩

theorem bytesToBits_of_bitsToBytes {s : BitSeq} {b : ByteSeq} (h : bitsToBytes s = .ok b) : bytesToBits b = s := by
  obtain ⟨hs, rfl⟩ := bitsToBytes_eq_ok.1 h
  exact bytesToBits_bytesOf s hs

/-- Settles O28: the bytes of a byte sequence's bits are the bytes, and a whole sequence is the bits of its own bytes. -/
theorem packingIsLossless : Obligations.PackingIsLossless :=
  ⟨bitsToBytes_bytesToBits, fun _ _ _ => bytesToBits_of_bitsToBytes⟩

/-! ### A stream as the concatenation of its words -/

theorem wordsOf_flatMap_toList (l : List Codeword7) : wordsOf (l.flatMap Codeword7.toList) = l := by
  induction l with
  | nil => rfl
  | cons c l ih => rw [List.flatMap_cons, wordsOf_toList_append, ih]

theorem blocksOf_flatMap_toList (l : List Block4) : blocksOf (l.flatMap Block4.toList) = l := by
  induction l with
  | nil => rfl
  | cons d l ih => rw [List.flatMap_cons, blocksOf_toList_append, ih]

/-- The sum of two streams is taken word by word. -/
theorem xorBits_flatMap_toList (as bs : List Codeword7) :
    xorBits (as.flatMap Codeword7.toList) (bs.flatMap Codeword7.toList) =
      (List.zipWith xorWord as bs).flatMap Codeword7.toList := by
  induction as generalizing bs with
  | nil => rfl
  | cons a as ih =>
    cases bs with
    | nil => rfl
    | cons b bs =>
      rw [List.flatMap_cons, List.flatMap_cons, xorBits_word_append, ih, List.zipWith_cons_cons, List.flatMap_cons]

/-- A block is the one block of its own sequence. -/
theorem Block4.toList_injective : Function.Injective Block4.toList :=
  fun _ _ h => List.singleton_inj.1 (congrArg blocksOf h)

theorem encodeBlocks_eq (s : BitSeq) : encodeBlocks s = ((blocksOf s).map encodeBlock).flatMap Codeword7.toList :=
  (List.flatMap_map ..).symm

theorem decodeWords_eq (s : BitSeq) :
    decodeWords s = ((wordsOf s).map fun w => (decodeBlock w).1).flatMap Block4.toList :=
  (List.flatMap_map ..).symm

theorem wordsOf_encodeBlocks (s : BitSeq) : wordsOf (encodeBlocks s) = (blocksOf s).map encodeBlock := by
  rw [encodeBlocks_eq, wordsOf_flatMap_toList]

theorem blocksOf_decodeWords (s : BitSeq) : blocksOf (decodeWords s) = (wordsOf s).map fun w => (decodeBlock w).1 := by
  rw [decodeWords_eq, blocksOf_flatMap_toList]

theorem decodeWords_encodeBlocks {s : BitSeq} (h : s.length % 4 = 0) : decodeWords (encodeBlocks s) = s := by
  rw [decodeWords_eq, wordsOf_encodeBlocks, List.map_map]
  simp only [Function.comp_def, decodeBlock_encodeBlock, List.map_id']
  exact flatMap_toList_blocksOf s h

theorem encodeBlocks_length_mod_seven {s : BitSeq} (h : s.length % 4 = 0) : (encodeBlocks s).length % 7 = 0 := by
  rw [encodeBlocks_length h]
  omega

/-! ### Errors on a stream -/

/-- The blocks that a stream decodes to under an error sequence: each one with what its error word adds to it. -/
def spoiltBlocks (s e : BitSeq) : List Block4 :=
  List.zipWith (fun d w => xorBlock d (decodeBlock w).1) (blocksOf s) (wordsOf e)

/-- The words of a whole sequence under a whole error sequence. -/
theorem wordsOf_xorBits {s e : BitSeq} (hs : s.length % 7 = 0) (he : e.length % 7 = 0) :
    wordsOf (xorBits s e) = List.zipWith xorWord (wordsOf s) (wordsOf e) := by
  have h := xorBits_flatMap_toList (wordsOf s) (wordsOf e)
  rw [flatMap_toList_wordsOf s hs, flatMap_toList_wordsOf e he] at h
  rw [h, wordsOf_flatMap_toList]

theorem decodeWords_xorBits_encodeBlocks {s e : BitSeq} (hs : s.length % 4 = 0) (he : e.length % 7 = 0) :
    decodeWords (xorBits (encodeBlocks s) e) = (spoiltBlocks s e).flatMap Block4.toList := by
  rw [decodeWords_eq, wordsOf_xorBits (encodeBlocks_length_mod_seven hs) he, wordsOf_encodeBlocks, List.zipWith_map_left,
    List.map_zipWith]
  simp only [decodeBlock_xorWord_encodeBlock]
  rfl

section
variable {s e : BitSeq} (hs : s.length % 4 = 0) (he : e.length = s.length * 7 / 4)
include hs he

theorem errors_length_mod_seven : e.length % 7 = 0 := by omega

theorem wordsOf_errors_length : (wordsOf e).length = s.length / 4 := by
  rw [wordsOf_length (errors_length_mod_seven hs he)]
  omega

theorem spoiltBlocks_length : (spoiltBlocks s e).length = s.length / 4 := by
  rw [spoiltBlocks, List.length_zipWith, blocksOf_length hs, wordsOf_errors_length hs he, Nat.min_self]

theorem xorBits_encodeBlocks_length : (xorBits (encodeBlocks s) e).length = s.length * 7 / 4 := by
  rw [xorBits_length, encodeBlocks_length hs, he, Nat.min_self]

/-- A block comes back exactly when its error word has at most one flip. -/
theorem spoiltBlocks_getElem_eq_iff {k : Nat} (hk : k < s.length / 4) :
    (spoiltBlocks s e)[k]'(by rwa [spoiltBlocks_length hs he]) = (blocksOf s)[k]'(by rwa [blocksOf_length hs]) ↔
      ones (slice e (7 * k) (7 * k + 7)) ≤ 1 := by
  have hword : k < (wordsOf e).length := by rwa [wordsOf_errors_length hs he]
  rw [slice_eq_toList_wordsOf (errors_length_mod_seven hs he) hword]
  simp only [spoiltBlocks, List.getElem_zipWith]
  rw [xorBlock_eq_left_iff, decodeBlock_eq_zero_iff, weight]

/-- At most one flip in each codeword leaves every block as it was sent. -/
theorem decodeWords_xorBits_eq (h : ∀ k, k < s.length / 4 → ones (slice e (7 * k) (7 * k + 7)) ≤ 1) :
    decodeWords (xorBits (encodeBlocks s) e) = s := by
  have hblocks : spoiltBlocks s e = blocksOf s := by
    apply List.ext_getElem
    · rw [spoiltBlocks_length hs he, blocksOf_length hs]
    · intro k hk _
      rw [spoiltBlocks_length hs he] at hk
      exact (spoiltBlocks_getElem_eq_iff hs he hk).2 (h k hk)
  rw [decodeWords_xorBits_encodeBlocks hs (errors_length_mod_seven hs he), hblocks, flatMap_toList_blocksOf s hs]

/-- Group `k` of the decoded stream is right exactly when its codeword has at most one flip. -/
theorem slice_decodeWords_xorBits_eq_iff {k : Nat} (hk : k < s.length / 4) :
    slice (decodeWords (xorBits (encodeBlocks s) e)) (4 * k) (4 * k + 4) = slice s (4 * k) (4 * k + 4) ↔
      ones (slice e (7 * k) (7 * k + 7)) ≤ 1 := by
  have hsent : k < (blocksOf s).length := by rwa [blocksOf_length hs]
  have hgot : k < (spoiltBlocks s e).length := by rwa [spoiltBlocks_length hs he]
  rw [decodeWords_xorBits_encodeBlocks hs (errors_length_mod_seven hs he), slice_flatMap Block4.length_toList hgot,
    slice_eq_toList_blocksOf hs hsent, Block4.toList_injective.eq_iff]
  exact spoiltBlocks_getElem_eq_iff hs he hk

end

/-- Settles O32: an error sequence adds one error word to each codeword, and DEC undoes exactly the error words of at
most one flip. -/
theorem streamCorrectsOneFlipPerCodeword : Obligations.StreamCorrectsOneFlipPerCodeword := by
  refine fun s hs => ⟨encodeBlocks s, encodeStream_of_mod_eq_zero hs, ?_, fun e he => ?_⟩
  · exact decodeStream_eq_ok.2 ⟨encodeBlocks_length_mod_seven hs, decodeWords_encodeBlocks hs⟩
  · have hlen := xorBits_encodeBlocks_length hs he
    have hmod : (xorBits (encodeBlocks s) e).length % 7 = 0 := by omega
    refine ⟨decodeWords (xorBits (encodeBlocks s) e), decodeStream_of_mod_eq_zero hmod, ?_, decodeWords_xorBits_eq hs he,
      fun k hk => slice_decodeWords_xorBits_eq_iff hs he hk⟩
    rw [decodeWords_length hmod, hlen]
    omega

end Sys2Proof.Machine
end

section
/-! The facades: `encode` (44_facades.md R80), the lengths on which `decode` succeeds (R82), and the round trip of bytes
(R83). -/

namespace Sys2Proof.Machine

/-! ### Encoding bytes -/

theorem encodeStream_bytesToBits (bytes : ByteSeq) : encodeStream (bytesToBits bytes) = .ok (facadeEncode bytes) :=
  encodeStream_of_mod_eq_zero (bytesToBits_length_mod_four bytes)

theorem facadeEncode_length (bytes : ByteSeq) : (facadeEncode bytes).length = 14 * bytes.length := by
  rw [facadeEncode, encodeBlocks_length (bytesToBits_length_mod_four bytes), bytesToBits_length]
  omega

/-- The two codewords of a byte, the high nibble's first. -/
def codewordsOfByte (b : Byte) : BitSeq :=
  (encodeBlock (highNibble b)).toList ++ (encodeBlock (lowNibble b)).toList

theorem codewordsOfByte_length (b : Byte) : (codewordsOfByte b).length = 14 := rfl

theorem facadeEncode_eq_flatMap (bytes : ByteSeq) : facadeEncode bytes = bytes.flatMap codewordsOfByte := by
  rw [facadeEncode, encodeBlocks, blocksOf_bytesToBits, List.flatMap_assoc]
  simp only [List.flatMap_cons, List.flatMap_nil, List.append_nil]
  rfl

/-- A slice inside a slice is a slice of the whole. -/
theorem slice_slice {α : Type} (s : List α) {a b i j : Nat} (h : a + j ≤ b) :
    slice (slice s a b) i j = slice s (a + i) (a + j) := by
  rw [slice, slice, slice, List.take_drop, List.take_take, Nat.min_eq_left h, List.drop_drop]

/-- The codewords of the byte at index `j` begin at `14*j`. -/
theorem slice_facadeEncode {bytes : ByteSeq} {j : Nat} {b : Byte} (h : bytes[j]? = some b) :
    slice (facadeEncode bytes) (14 * j) (14 * j + 14) = codewordsOfByte b := by
  obtain ⟨hj, rfl⟩ := List.getElem?_eq_some_iff.1 h
  rw [facadeEncode_eq_flatMap]
  exact slice_flatMap codewordsOfByte_length hj

/-- Settles O33: the packed length is a multiple of 8, and each byte's two codewords stand at their own place. -/
theorem encodeFacadeNeverFails : Obligations.EncodeFacadeNeverFails := by
  refine ⟨fun bytes => ⟨encodeStream_bytesToBits bytes, facadeEncode_length bytes, fun j b h => ⟨?_, ?_⟩⟩,
    fun bytes => execCall_keeps_blocks (.encode bytes), rfl, rfl⟩
  · have hinner := slice_slice (facadeEncode bytes) (a := 14 * j) (b := 14 * j + 14) (i := 0) (j := 7) (by omega)
    rw [slice_facadeEncode h] at hinner
    exact hinner.symm
  · have hinner := slice_slice (facadeEncode bytes) (a := 14 * j) (b := 14 * j + 14) (i := 7) (j := 14) (by omega)
    rw [slice_facadeEncode h] at hinner
    exact hinner.symm

/-! ### Where `decode` succeeds -/

/-- Both length checks together ask for a multiple of 14. -/
theorem facadeDecode_eq_fail_iff_mod_fourteen {bits : BitSeq} :
    facadeDecode bits = .fail .malformedLength ↔ bits.length % 14 ≠ 0 := by
  rw [facadeDecode_eq_fail]
  omega

theorem decoded_length_mod_eight {bits : BitSeq} (h : bits.length % 14 = 0) : (decodeWords bits).length % 8 = 0 := by
  rw [decodeWords_length (by omega)]
  omega

theorem facadeDecode_of_mod_fourteen_eq_zero {bits : BitSeq} (h : bits.length % 14 = 0) :
    facadeDecode bits = .ok (bytesOf (decodeWords bits)) := by
  have h8 := decoded_length_mod_eight h
  rw [facadeDecode_of_decoded_mod_eight_eq_zero (by omega) h8, bitsToBytes_of_mod_eq_zero h8]

theorem facadeDecode_eq_ok_iff {bits : BitSeq} {bytes : ByteSeq} :
    facadeDecode bits = .ok bytes ↔ bits.length % 14 = 0 ∧ bytesOf (decodeWords bits) = bytes := by
  by_cases h : bits.length % 14 = 0
  · simp [facadeDecode_of_mod_fourteen_eq_zero h, h]
  · simp [facadeDecode_eq_fail_iff_mod_fourteen.2 h, h]

/-- Settles O35: the two length checks together, as arithmetic on the one length. -/
theorem decodeSucceedsOnMultiplesOfFourteen : Obligations.DecodeSucceedsOnMultiplesOfFourteen := by
  refine ⟨fun bits => ⟨?_, fun h => ?_⟩, fun bits => facadeDecode_eq_fail_iff_mod_fourteen, fun bits m hm => ?_⟩
  · rintro ⟨bytes, h⟩
    exact (facadeDecode_eq_ok_iff.1 h).1
  · exact ⟨_, facadeDecode_of_mod_fourteen_eq_zero h⟩
  · have h7 : bits.length % 7 = 0 := by omega
    have hlen : (decodeWords bits).length = 4 * m := by
      rw [decodeWords_length h7]
      omega
    refine ⟨decodeWords bits, decodeStream_of_mod_eq_zero h7, hlen, ?_⟩
    rw [hlen]
    omega

/-! ### The round trip -/

/-- What decodes to the bits of a byte sequence decodes to the bytes. -/
theorem facadeDecode_of_decodeWords {bits : BitSeq} {bytes : ByteSeq} (hlen : bits.length = 14 * bytes.length)
    (h : decodeWords bits = bytesToBits bytes) : facadeDecode bits = .ok bytes :=
  facadeDecode_eq_ok_iff.2 ⟨by omega, by rw [h, bytesOf_bytesToBits]⟩

theorem facadeDecode_facadeEncode (bytes : ByteSeq) : facadeDecode (facadeEncode bytes) = .ok bytes :=
  facadeDecode_of_decodeWords (facadeEncode_length bytes) (decodeWords_encodeBlocks (bytesToBits_length_mod_four bytes))

/-- Settles O36: the stream decoder gives back the bits of the bytes, and packing gives back the bytes. -/
theorem roundTripUnderOneFlipPerCodeword : Obligations.RoundTripUnderOneFlipPerCodeword := by
  refine ⟨facadeDecode_facadeEncode, fun b e he h => facadeDecode_of_decodeWords ?_ ?_⟩
  · rw [xorBits_length, facadeEncode_length, he, Nat.min_self]
  · have hlen := bytesToBits_length b
    refine decodeWords_xorBits_eq (bytesToBits_length_mod_four b) ?_ fun k hk => h k ?_
    · omega
    · omega

end Sys2Proof.Machine
end

section
/-! Failures and lengths (60_exceptions.md R85, R88, R89), and the number of block requests of a call (R107, R108). -/

namespace Sys2Proof.Machine

/-- Settles O39: each of the four operations fails on a condition on the length alone. -/
theorem failureDependsOnLengthAlone : Obligations.FailureDependsOnLengthAlone := by
  intro a b hab
  obtain ⟨-, -, -, hpack, hencode, hdecode, -, hfacade⟩ := failurePointsTable
  refine ⟨?_, ?_, ?_, ?_⟩
  · rw [Bool.eq_iff_iff, hpack, hpack, hab]
  · rw [Bool.eq_iff_iff, hencode, hencode, hab]
  · rw [Bool.eq_iff_iff, hdecode, hdecode, hab]
  · rw [Bool.eq_iff_iff, hfacade, hfacade, hab]

/-! ### Block requests behind the first length check -/

theorem blockRequests_encodeStream {bits : BitSeq} (h : bits.length % 4 = 0) :
    blockRequests (.encodeStream bits) = (blocksOf bits).map .enc := if_neg (not_not.2 h)

theorem blockRequests_decodeStream {bits : BitSeq} (h : bits.length % 7 = 0) :
    blockRequests (.decodeStream bits) = (wordsOf bits).map .dec := if_neg (not_not.2 h)

theorem blockRequests_decode {bits : BitSeq} (h : bits.length % 7 = 0) :
    blockRequests (.decode bits) = (wordsOf bits).map .dec := if_neg (not_not.2 h)

theorem blockRequests_decode_length {bits : BitSeq} (h : bits.length % 7 = 0) :
    (blockRequests (.decode bits)).length = bits.length / 7 := by
  rw [blockRequests_decode h, List.length_map, wordsOf_length h]

/-- Settles O40: a failed first check leaves no request, and the second check is on what the words decoded to. -/
theorem lengthCheckComesBeforeEveryBlock : Obligations.LengthCheckComesBeforeEveryBlock :=
  ⟨fun _ h => if_pos h, fun _ h => ⟨if_pos h, if_pos h⟩,
    fun _ h7 h8 => ⟨blockRequests_decode_length h7, facadeDecode_eq_fail.2 (.inr ⟨h7, h8⟩)⟩⟩

/-- Settles O41: the requests are one for each block or word of a whole sequence. -/
theorem oneBlockStepPerBlock : Obligations.OneBlockStepPerBlock := by
  refine ⟨fun bits h => ?_, fun bits h => ?_, fun bytes => ?_, fun bits => blockRequests_decode_length⟩
  · rw [blockRequests_encodeStream h, List.length_map, blocksOf_length h]
  · rw [blockRequests_decodeStream h, List.length_map, wordsOf_length h]
  · rw [blockRequests, List.length_map, blocksOf_length (bytesToBits_length_mod_four bytes), bytesToBits_length]
    omega

end Sys2Proof.Machine
end

section
/-! The soundness of every result (Safety.lean, `Answer.Sound`): the value of each operation has the properties that the
spec promises of it, and a step appends such a value. -/

namespace Sys2Proof.Machine

/-! ### Re-encoding a decoded stream -/

theorem decodeWords_length_mod_four {bits : BitSeq} (h : bits.length % 7 = 0) : (decodeWords bits).length % 4 = 0 := by
  rw [decodeWords_length h]
  omega

/-- The words of a decoded stream's encoding are the copies of the received words. -/
theorem encodeBlocks_decodeWords (bits : BitSeq) :
    encodeBlocks (decodeWords bits) = ((wordsOf bits).map correctedCopy).flatMap Codeword7.toList := by
  rw [encodeBlocks_eq, blocksOf_decodeWords, List.map_map]
  simp only [Function.comp_def, encodeBlock_decodeBlock]

/-- What a decoded stream's encoding differs in from the received stream: in each word, the bit that its position names. -/
theorem xorBits_encodeBlocks_decodeWords {bits : BitSeq} (h : bits.length % 7 = 0) :
    xorBits (encodeBlocks (decodeWords bits)) bits =
      ((wordsOf bits).map fun w => unit (errorPosition w)).flatMap Codeword7.toList := by
  have hsum := xorBits_flatMap_toList ((wordsOf bits).map correctedCopy) (wordsOf bits)
  rw [flatMap_toList_wordsOf bits h, ← encodeBlocks_decodeWords] at hsum
  rw [hsum, List.zipWith_map_left, List.zipWith_self]
  simp only [xorWord_comm (correctedCopy _), xorWord_correctedCopy]

theorem encodeBlocks_decodeWords_length {bits : BitSeq} (h : bits.length % 7 = 0) :
    (encodeBlocks (decodeWords bits)).length = bits.length := by
  rw [encodeBlocks_length (decodeWords_length_mod_four h), decodeWords_length h]
  omega

/-- A received stream is one flip per codeword away from the encoding of what it decodes to. -/
theorem oneFlipPerCodeword_encodeBlocks_decodeWords {bits : BitSeq} (h : bits.length % 7 = 0) :
    OneFlipPerCodeword (encodeBlocks (decodeWords bits)) bits := by
  have hlen := encodeBlocks_decodeWords_length h
  refine ⟨hlen, fun k hk => ?_⟩
  rw [hlen, ← wordsOf_length h, ← List.length_map (fun w => unit (errorPosition w))] at hk
  rw [xorBits_encodeBlocks_decodeWords h, slice_flatMap Codeword7.length_toList hk, List.getElem_map]
  exact weight_unit_le_one _

/-! ### The value of each operation is sound -/

theorem answered_block_sound (i : Instr) : (Op.block i).answered.Sound := by
  cases i with
  | enc d => exact ⟨isValid_encodeBlock d, extract_encodeBlock d⟩
  | dec w =>
    have hcopy : correctedCopy w = xorWord w (unit (decodeBlock w).2) := correctedCopy_eq_xor_unit w
    exact ⟨hcopy ▸ isValid_correctedCopy w, hcopy ▸ rfl⟩

theorem answered_bytesToBits_sound (bytes : ByteSeq) : (Op.call (.bytesToBits bytes)).answered.Sound :=
  ⟨bytesToBits_length bytes, bitsToBytes_bytesToBits bytes⟩

theorem answered_bitsToBytes_sound (bits : BitSeq) : (Op.call (.bitsToBytes bits)).answered.Sound := by
  rw [Op.answered, Op.value]
  by_cases h : bits.length % 8 = 0
  · rw [bitsToBytes_of_mod_eq_zero h]
    exact bytesToBits_bytesOf bits h
  · rw [bitsToBytes_of_mod_ne_zero h]
    exact mt Nat.mod_eq_zero_of_dvd h

theorem answered_encodeStream_sound (bits : BitSeq) : (Op.call (.encodeStream bits)).answered.Sound := by
  rw [Op.answered, Op.value]
  by_cases h : bits.length % 4 = 0
  · rw [encodeStream_of_mod_eq_zero h]
    have hlen := encodeBlocks_length h
    exact ⟨by omega, decodeStream_eq_ok.2 ⟨encodeBlocks_length_mod_seven h, decodeWords_encodeBlocks h⟩⟩
  · rw [encodeStream_of_mod_ne_zero h]
    exact mt Nat.mod_eq_zero_of_dvd h

theorem answered_decodeStream_sound (bits : BitSeq) : (Op.call (.decodeStream bits)).answered.Sound := by
  rw [Op.answered, Op.value]
  by_cases h : bits.length % 7 = 0
  · rw [decodeStream_of_mod_eq_zero h]
    have hlen := decodeWords_length h
    exact ⟨by omega, encodeBlocks (decodeWords bits), encodeStream_of_mod_eq_zero (decodeWords_length_mod_four h),
      oneFlipPerCodeword_encodeBlocks_decodeWords h⟩
  · rw [decodeStream_of_mod_ne_zero h]
    exact mt Nat.mod_eq_zero_of_dvd h

theorem answered_encode_sound (bytes : ByteSeq) : (Op.call (.encode bytes)).answered.Sound :=
  ⟨facadeEncode_length bytes, facadeDecode_facadeEncode bytes⟩

theorem answered_decode_sound (bits : BitSeq) : (Op.call (.decode bits)).answered.Sound := by
  rw [Op.answered, Op.value]
  by_cases h : bits.length % 14 = 0
  · rw [facadeDecode_of_mod_fourteen_eq_zero h]
    have h7 : bits.length % 7 = 0 := by omega
    have h8 := decoded_length_mod_eight h
    have hlen := bytesOf_decodeWords_length h7 h8
    have hencode : facadeEncode (bytesOf (decodeWords bits)) = encodeBlocks (decodeWords bits) := by
      rw [facadeEncode, bytesToBits_bytesOf _ h8]
    exact ⟨by omega, hencode ▸ oneFlipPerCodeword_encodeBlocks_decodeWords h7⟩
  · rw [facadeDecode_eq_fail_iff_mod_fourteen.2 h]
    exact mt Nat.mod_eq_zero_of_dvd h

theorem answered_sound (op : Op) : op.answered.Sound := by
  cases op with
  | block i => exact answered_block_sound i
  | call p =>
    cases p with
    | bytesToBits bytes => exact answered_bytesToBits_sound bytes
    | bitsToBytes bits => exact answered_bitsToBytes_sound bits
    | encodeStream bits => exact answered_encodeStream_sound bits
    | decodeStream bits => exact answered_decodeStream_sound bits
    | encode bytes => exact answered_encode_sound bytes
    | decode bits => exact answered_decode_sound bits

/-! ### The invariant -/

/-- Settles O51: a step keeps the earlier results and appends the value of one operation, which is sound. -/
theorem everyStepKeepsResultsSound : Obligations.EveryStepKeepsResultsSound := by
  intro s t hs hstep a ha
  obtain ⟨_, op, -, -, hanswers⟩ := step_eq_next hstep
  rw [hanswers, List.mem_append, List.mem_singleton] at ha
  rcases ha with hold | rfl
  · exact hs a hold
  · exact answered_sound op

/-- Settles O52: after reset there is no result. -/
theorem resetResultsAreSound : Obligations.ResetResultsAreSound :=
  fun _ ha => absurd ha List.not_mem_nil

end Sys2Proof.Machine
end

section
/-! Steps and runs of the machine (10_state.md R12; 92_eei_decisions.md D23): what a step does with the next request, and
what a run answers to the well-formed requests in front of the list. -/

namespace Sys2Proof.Machine

/-! ### Requests and their operations -/

theorem Request.op_word {w : RequestWord} {i : Instr} (h : decodeWord w = .ok i) :
    (Request.word w).op = some (.block i) := by
  simp only [Request.op, h]

theorem Request.op_encodeWord (i : Instr) : (Request.word (encodeWord i)).op = some (.block i) :=
  Request.op_word (decodeWord_encodeWord i)

/-- A well-formed request names an operation. -/
theorem Request.exists_op {r : Request} (h : r.wellFormed = true) : ∃ op, r.op = some op := by
  cases r with
  | word w =>
    obtain ⟨i, hi⟩ := (wellFormed_iff_decodes w).1 h
    exact ⟨.block i, Request.op_word hi⟩
  | call p => exact ⟨.call p, rfl⟩

/-- The requests that are not well formed are the words of R40. -/
theorem Request.not_wellFormed_iff {r : Request} :
    ¬ r.wellFormed = true ↔ ∃ w, r = .word w ∧ 0x10 ≤ w.toNat ∧ w.toNat ≤ 0x7F := by
  cases r with
  | word w => simp [Request.wellFormed, RequestWord.wellFormed]
  | call p => simp [Request.wellFormed]

/-! ### One equation per outcome of a step -/

theorem step_of_nil {s : State} (h : s.requests = []) : step s = .refused .runEnded := by
  rw [step, State.fetch_eq_none.2 h]

/-- A request that names an operation is taken off the list and answered by the operation's value. -/
theorem step_of_op {s : State} {r : Request} {rest : List Request} {op : Op} (h : s.requests = r :: rest)
    (hop : r.op = some op) :
    step s = .next { blocks := s.blocks, requests := rest, answers := s.answers ++ [op.answered] } := by
  cases r with
  | word w =>
    rw [step_word h]
    cases hw : decodeWord w with
    | ok i =>
      obtain rfl : Op.block i = op := Option.some.inj ((Request.op_word hw).symm.trans hop)
      exact exec_eq_answer i _
    | error e => simp [Request.op, hw] at hop
  | call p =>
    obtain rfl : Op.call p = op := Option.some.inj hop
    exact step_call h

theorem step_of_not_wellFormed {s : State} {w : RequestWord} {rest : List Request} (h : s.requests = .word w :: rest)
    (hw : 0x10 ≤ w.toNat ∧ w.toNat ≤ 0x7F) : step s = .refused (.noOperation w) :=
  (step_refused_noOperation_iff h).2 ((decodeWord_eq_noOperation_iff w).2 hw)

/-- A step finds no request, refuses a word of R40, or answers the operation of the next request. -/
theorem step_cases (s : State) :
    (s.requests = [] ∧ step s = .refused .runEnded) ∨
    (∃ w rest, s.requests = .word w :: rest ∧ (0x10 ≤ w.toNat ∧ w.toNat ≤ 0x7F) ∧
      step s = .refused (.noOperation w)) ∨
    ∃ t, step s = .next t := by
  cases h : s.requests with
  | nil => exact .inl ⟨rfl, step_of_nil h⟩
  | cons r rest =>
    by_cases hr : r.wellFormed = true
    · obtain ⟨op, hop⟩ := Request.exists_op hr
      exact .inr (.inr ⟨_, step_of_op h hop⟩)
    · obtain ⟨w, rfl, hw⟩ := Request.not_wellFormed_iff.1 hr
      exact .inr (.inl ⟨w, rest, rfl, hw, step_of_not_wellFormed h hw⟩)

/-! ### Runs -/

theorem run_succ_of_step {M : Host.Core} {s t : M.State} (h : M.step s = .next t) (k : Nat) :
    M.run (k + 1) s = M.run k t := by
  rw [Host.Core.run, h]

/-- Requests that name operations are answered in order by the operations' values, and the requests behind them wait. -/
theorem run_of_ops {qs rest : List Request} {ops : List Op} {s : State} (h : s.requests = qs ++ rest)
    (hops : qs.map Request.op = ops.map some) :
    Host.Core.run core qs.length s =
      .next { blocks := s.blocks, requests := rest, answers := s.answers ++ ops.map Op.answered } := by
  induction qs generalizing s ops with
  | nil =>
    obtain rfl : ops = [] := List.map_eq_nil_iff.1 hops.symm
    obtain ⟨b, q, as⟩ := s
    obtain rfl : q = rest := h
    rw [List.map_nil, List.append_nil]
    rfl
  | cons q qs ih =>
    cases ops with
    | nil => cases hops
    | cons op ops =>
      obtain ⟨hop, hops⟩ := List.cons.inj hops
      refine (run_succ_of_step (M := core) (step_of_op h hop) qs.length).trans ?_
      rw [ih rfl hops, List.append_assoc, List.map_cons, List.singleton_append]

/-- The operations of well-formed requests. -/
theorem map_op_eq_map_some {qs : List Request} (h : ∀ r ∈ qs, r.wellFormed = true) :
    qs.map Request.op = (qs.filterMap Request.op).map some := by
  induction qs with
  | nil => rfl
  | cons r qs ih =>
    obtain ⟨hr, hqs⟩ := List.forall_mem_cons.1 h
    obtain ⟨op, hop⟩ := Request.exists_op hr
    rw [List.map_cons, List.filterMap_cons_some hop, List.map_cons, ih hqs, hop]

/-- A runnable machine answers all its requests. -/
theorem run_to_end {s : State} (h : s.Runnable) : Host.Core.run core s.requests.length s =
    .next { blocks := s.blocks
            requests := []
            answers := s.answers ++ (s.requests.filterMap Request.op).map Op.answered } :=
  run_of_ops (List.append_nil _).symm (map_op_eq_map_some h)

/-! ### The obligations on single steps -/

/-- Settles O37: a call answers its operation's value, and nothing else changes. -/
theorem callsCompleteAndChangeNothingElse : Obligations.CallsCompleteAndChangeNothingElse := fun s bytes bits =>
  ⟨execCall_eq_answer (.bytesToBits bytes) s, execCall_eq_answer (.bitsToBytes bits) s,
    execCall_eq_answer (.encodeStream bits) s, execCall_eq_answer (.decodeStream bits) s,
    execCall_eq_answer (.encode bytes) s, execCall_eq_answer (.decode bits) s⟩

/-- Presenting a request word by its number puts that word in front of the list. -/
theorem withFetchWord_toNat (s : State) (w : RequestWord) : s.withFetchWord 8 w.toNat = s.present (.word w) := by
  rw [State.withFetchWord, Nat.mod_eq_of_lt w.isLt, BitVec.ofNat_toNat, BitVec.setWidth_eq]

/-- Settles O43: the step on a decoded word is its instruction, and the word of an instruction decodes to it. -/
theorem stepRunsTheDecodedInstruction : Obligations.StepRunsTheDecodedInstruction := by
  refine ⟨fun s w rest i h hdec => ?_, fun s i => ?_⟩
  · rw [step_word h, decodeWord_of_decode_singleton hdec]
  · rw [withFetchWord_toNat, step_word (State.present_requests s _), decodeWord_encodeWord]
    rfl

/-- Settles O44: a call is one step in all, and an empty list ends the run. -/
theorem stepRunsTheNextCall : Obligations.StepRunsTheNextCall :=
  ⟨fun _ p _ h => (step_call h).trans (execCall_eq_answer p _).symm, fun _ => step_of_nil⟩

/-- Settles O42: the three outcomes of a step hold no fault and two refusals. -/
theorem noStepFaultsAndRefusalsAreNamed : Obligations.NoStepFaultsAndRefusalsAreNamed := by
  refine ⟨fun s f hf => ?_, fun s r => ⟨fun hr => ?_, ?_⟩⟩
  · rcases step_cases s with ⟨-, h⟩ | ⟨w, rest, -, -, h⟩ | ⟨t, h⟩ <;> cases h.symm.trans hf
  · rcases step_cases s with ⟨hnil, h⟩ | ⟨w, rest, hcons, ⟨hlow, hhigh⟩, h⟩ | ⟨t, h⟩
    · cases h.symm.trans hr
      exact .inl ⟨hnil, rfl⟩
    · cases h.symm.trans hr
      exact .inr ⟨w, rest, hcons, hlow, hhigh, rfl⟩
    · cases h.symm.trans hr
  · rintro (⟨hnil, rfl⟩ | ⟨w, rest, hcons, hlow, hhigh, rfl⟩)
    · exact step_of_nil hnil
    · exact step_of_not_wellFormed hcons ⟨hlow, hhigh⟩

/-- Settles O45: the answer is the value of the operation that the request names. -/
theorem resultDependsOnTheRequestAlone : Obligations.ResultDependsOnTheRequestAlone := by
  intro s t r qs qt hs ht hr
  obtain ⟨op, hop⟩ := Request.exists_op hr
  exact ⟨op.answered, step_of_op hs hop, step_of_op ht hop⟩

/-- Settles O47: the next request is well formed, so it is answered and taken off the list. -/
theorem runnableMachinesMakeProgress : Obligations.RunnableMachinesMakeProgress := by
  intro s hrun hne
  obtain ⟨r, rest, h⟩ := List.exists_cons_of_ne_nil hne
  have hall : ∀ q ∈ r :: rest, q.wellFormed = true := h ▸ hrun
  obtain ⟨hr, hrest⟩ := List.forall_mem_cons.1 hall
  obtain ⟨op, hop⟩ := Request.exists_op hr
  exact ⟨_, step_of_op h hop, hrest, by rw [h, List.length_cons]⟩

/-- Settles O53: the blocks' state is the unit, and reset has empty lists. -/
theorem resetLeavesTheUnitState : Obligations.ResetLeavesTheUnitState :=
  ⟨fun _ _ => rfl, rfl, rfl, rfl⟩

/-! ### The obligations on runs -/

/-- Settles O48: a run over well-formed requests answers the operations that they name. -/
theorem requestsAreAnsweredFirstToLast : Obligations.RequestsAreAnsweredFirstToLast := fun _ qs _ h hqs =>
  ⟨qs.filterMap Request.op, map_op_eq_map_some hqs, run_of_ops h (map_op_eq_map_some hqs)⟩

/-- Settles O46: two equal requests name one operation. -/
theorem repeatingARequestRepeatsItsResult : Obligations.RepeatingARequestRepeatsItsResult := by
  intro s r rest h hr
  obtain ⟨op, hop⟩ := Request.exists_op hr
  have hops : [r, r].map Request.op = [op, op].map some := by
    simp only [List.map_cons, List.map_nil, hop]
  exact ⟨op.answered, run_of_ops h hops⟩

/-- Settles O49: the answers are a function of each request on its own, so they are permuted with the requests. -/
theorem orderOfRequestsDoesNotMatter : Obligations.OrderOfRequestsDoesNotMatter := by
  intro s t hs hperm
  have ht : t.Runnable := fun r hr => hs r (hperm.mem_iff.2 hr)
  exact ⟨_, _, run_to_end hs, run_to_end ht, (hperm.filterMap _).map _⟩

/-! ### The expansion of a call -/

/-- The bits of the values of a call's block requests, concatenated. -/
def expansionBits (p : Call) : BitSeq := ((blockRequests p).map fun i => (Op.block i).value).flatMap resultBits

theorem expansionBits_of_enc {p : Call} {ds : List Block4} (h : blockRequests p = ds.map .enc) :
    expansionBits p = ds.flatMap fun d => (encodeBlock d).toList := by
  rw [expansionBits, h, List.map_map, List.flatMap_map]
  rfl

theorem expansionBits_of_dec {p : Call} {ws : List Codeword7} (h : blockRequests p = ws.map .dec) :
    expansionBits p = ws.flatMap fun w => (decodeBlock w).1.toList := by
  rw [expansionBits, h, List.map_map, List.flatMap_map]
  rfl

/-- What the caller makes of the values of a call's block requests is the value of the call. -/
theorem assemble_blockRequests (p : Call) :
    assemble p ((blockRequests p).map fun i => (Op.block i).value) = (Op.call p).value := by
  cases p with
  | bytesToBits bytes => rfl
  | bitsToBytes bits => rfl
  | encodeStream bits =>
    change OpResult.bitsResult (requireWhole 4 bits (.ok (expansionBits (.encodeStream bits)))) = _
    by_cases h : bits.length % 4 = 0
    · rw [expansionBits_of_enc (blockRequests_encodeStream h)]
      rfl
    · rw [requireWhole_of_not_dvd (mt Nat.mod_eq_zero_of_dvd h), Op.value, encodeStream_of_mod_ne_zero h]
  | decodeStream bits =>
    change OpResult.bitsResult (requireWhole 7 bits (.ok (expansionBits (.decodeStream bits)))) = _
    by_cases h : bits.length % 7 = 0
    · rw [expansionBits_of_dec (blockRequests_decodeStream h)]
      rfl
    · rw [requireWhole_of_not_dvd (mt Nat.mod_eq_zero_of_dvd h), Op.value, decodeStream_of_mod_ne_zero h]
  | encode bytes => exact congrArg OpResult.bits (expansionBits_of_enc rfl)
  | decode bits =>
    change OpResult.bytesResult (requireWhole 7 bits (requireWhole 8 (expansionBits (.decode bits))
      (bitsToBytes (expansionBits (.decode bits))))) = _
    by_cases h : bits.length % 7 = 0
    · rw [expansionBits_of_dec (blockRequests_decode h), requireWhole_of_dvd (Nat.dvd_of_mod_eq_zero h), Op.value,
        facadeDecode_of_mod_seven_eq_zero h]
      rfl
    · rw [requireWhole_of_not_dvd (mt Nat.mod_eq_zero_of_dvd h), Op.value, facadeDecode_of_mod_seven_ne_zero h]

/-- Settles O50: the block requests are words of instructions, which a run answers by their values. -/
theorem callsEqualTheirBlockExpansion : Obligations.CallsEqualTheirBlockExpansion := by
  intro p s rest h
  have hops : ((blockRequests p).map fun i => Request.word (encodeWord i)).map Request.op =
      ((blockRequests p).map Op.block).map some := by
    simp only [List.map_map, Function.comp_def, Request.op_encodeWord]
  have hrun := run_of_ops h hops
  rw [List.length_map] at hrun
  refine ⟨_, hrun, ?_, ?_⟩
  · rw [List.map_map, List.map_map]
    rfl
  · rw [List.map_map, List.map_map]
    exact assemble_blockRequests p

end Sys2Proof.Machine
end

section
/-! The text form of a bit sequence (30_encoding.md R43, 92_eei_decisions.md D16). -/

namespace Sys2Proof.Machine

/-! ### One character -/

theorem parseBit_renderBit (b : Bit) : parseBit (renderBit b) = some b := by
  cases b <;> rfl

theorem parseBit_eq_some_iff {ch : Char} {b : Bit} : parseBit ch = some b ↔ renderBit b = ch := by
  constructor
  · rw [parseBit]
    split_ifs with h0 h1 <;> rintro ⟨⟩
    · exact h0.symm
    · exact h1.symm
  · rintro rfl
    exact parseBit_renderBit b

theorem parseBit_eq_none_iff {ch : Char} : parseBit ch = none ↔ ch ≠ '0' ∧ ch ≠ '1' := by
  rw [Option.eq_none_iff_forall_ne_some]
  simp only [ne_eq, parseBit_eq_some_iff, Bool.forall_bool, renderBit]
  simp [eq_comm]

/-! ### A character in front of a text -/

theorem parseText_cons_eq_some {ch : Char} {text : List Char} {bits : BitSeq} :
    parseText (ch :: text) = some bits ↔ ∃ b bs, parseBit ch = some b ∧ parseText text = some bs ∧ b :: bs = bits := by
  rw [parseText]
  cases parseBit ch <;> cases parseText text <;> simp

theorem parseText_cons_eq_none {ch : Char} {text : List Char} :
    parseText (ch :: text) = none ↔ parseBit ch = none ∨ parseText text = none := by
  rw [parseText]
  cases parseBit ch <;> cases parseText text <;> simp

/-! ### Whole texts -/

theorem parseText_renderText (bits : BitSeq) : parseText (renderText bits) = some bits := by
  induction bits with
  | nil => rfl
  | cons b bits ih => exact parseText_cons_eq_some.2 ⟨b, bits, parseBit_renderBit b, ih, rfl⟩

theorem renderText_of_parseText {text : List Char} {bits : BitSeq} (h : parseText text = some bits) :
    renderText bits = text := by
  induction text generalizing bits with
  | nil => cases h; rfl
  | cons ch text ih =>
    obtain ⟨b, bs, hch, htext, rfl⟩ := parseText_cons_eq_some.1 h
    exact congrArg₂ List.cons (parseBit_eq_some_iff.1 hch) (ih htext)

theorem parseText_eq_none_iff (text : List Char) : parseText text = none ↔ ∃ ch ∈ text, ch ≠ '0' ∧ ch ≠ '1' := by
  induction text with
  | nil => simp [parseText]
  | cons ch text ih => rw [parseText_cons_eq_none, parseBit_eq_none_iff, ih, List.exists_mem_cons_iff]

/-- Settles O54: parsing inverts rendering character by character, and one bad character is enough for a refusal. -/
theorem textFormIsOneCharacterPerBit : Obligations.TextFormIsOneCharacterPerBit :=
  ⟨fun bits => ⟨List.length_map renderBit, parseText_renderText bits⟩, fun _ _ => renderText_of_parseText,
    parseText_eq_none_iff⟩

end Sys2Proof.Machine
end
